-- ==== Sys2Proof/Word.lean ====
section
/-! DEFINITION. Bytes, words, blocks, the five-word command descriptor, and the names of the three
configuration choices a command word carries (rules R8, R13 to R15, R45). -/

namespace Sys2Proof

/-- A byte, 8 bits (R8). -/
abbrev Byte := BitVec 8

/-- A word, 32 bits (R8). -/
abbrev Word := BitVec 32

/-- A block: a string of 16 bytes, index 0 first (R8). -/
abbrev Block := Vector Byte 16

/-- The block of sixteen zero bytes, `zeros(16)` (R8). -/
def Block.zero : Block := Vector.replicate 16 0

/-- A round-key file, in use order (R18). -/
abbrev RoundKeys := Vector Word 32

/-- `DIR` (R13, R49). -/
inductive Direction where
  | encrypt
  | decrypt
deriving DecidableEq, Repr

/-- The two modes `MODE` can hold (R14, R50). -/
inductive Mode where
  | ecb
  | cbc
deriving DecidableEq, Repr

/-- The five paddings `PAD` can hold (R15, R51). -/
inductive Padding where
  | none
  | pkcs7
  | ansix923
  | iso10126
  | zeros
deriving DecidableEq, Repr

/-- A command descriptor: five 32-bit numbers presented together (R45). They are numbers, not bytes
in MEM, so they have no byte order. -/
structure Descriptor where
  w0 : Word
  w1 : Word
  w2 : Word
  w3 : Word
  w4 : Word
deriving DecidableEq, Repr

end Sys2Proof
end

