-- ==== Sys2Proof/Syntax.lean ====
section
/-! DEFINITION. The command set, exactly LOAD, BLOCK and FINAL (R110): one constructor per row of
spec/opcode_table.json, with its operands as rules R47 and R52 assemble them. -/

namespace Sys2Proof

/-- A decoded command. The codes of `mode` and `pad` are kept whole, because a LOAD whose code is
unsupported decodes as LOAD and is then rejected by LOAD itself (R50, R51, R56). -/
inductive Instr where
  /-- LOAD (R111): direction, mode code, padding code, and the operand words W1 to W4. -/
  | load (dir : Direction) (mode pad : BitVec 3) (keyAddr keyLen ivAddr ivLen : Word)
  /-- BLOCK (R112): the operand words W1 to W3. -/
  | block (inAddr inCount outAddr : Word)
  /-- FINAL (R113): the operand words W1 to W3. -/
  | final (inAddr inCount outAddr : Word)
deriving DecidableEq, Repr

end Sys2Proof
end

