-- ==== Sys2Proof/Decode.lean ====
section
/-! DEFINITION. Decoding a descriptor (R45 to R52, R55, R57), the encoder (R46, R47, R58), the textual
form of a command (R58), and the reading of an opcode-table word. -/

namespace Sys2Proof

/-- Why a descriptor is an illegal command (R55). -/
inductive DecodeError where
  /-- `OP` is outside 1, 2, 3. -/
  | unknownOp
  /-- Bits 31:15 (`RSV`) are not all zero. -/
  | reservedBits
  /-- `OP` is 2 or 3 and one of bits 14:8 is set. -/
  | configurationBits
deriving DecidableEq, Repr

/-- R49: 0 = Encrypt, 1 = Decrypt. -/
def Direction.code : Direction → BitVec 1
  | .encrypt => 0
  | .decrypt => 1

/-- The direction a `DIR` bit names (R49). -/
def Direction.ofCode (b : BitVec 1) : Direction := if b = 0 then .encrypt else .decrypt

/-- `OP = W0[7:0]` (R46). -/
def opField (w0 : Word) : BitVec 8 := w0.extractLsb' 0 8

/-- `DIR = W0[8]` (R52). -/
def dirField (w0 : Word) : BitVec 1 := w0.extractLsb' 8 1

/-- `MODE = W0[11:9]` (R52). -/
def modeField (w0 : Word) : BitVec 3 := w0.extractLsb' 9 3

/-- `PAD = W0[14:12]` (R52). -/
def padField (w0 : Word) : BitVec 3 := w0.extractLsb' 12 3

/-- `RSV = W0[31:15]` (R46). -/
def rsvField (w0 : Word) : BitVec 17 := w0.extractLsb' 15 17

/-- The checks of format T on bits 31:8, by name (R46, R55). -/
def formatT (w0 : Word) (i : Instr) : Except DecodeError Instr :=
  if rsvField w0 ≠ 0 then .error .reservedBits
  else if padField w0 ≠ 0 ∨ modeField w0 ≠ 0 ∨ dirField w0 ≠ 0 then .error .configurationBits
  else .ok i

/-- Decoding, by `W0` alone (R48): a command with its operands (R52), or the reason it is illegal
(R55). `W4` of format T is ignored (R56). -/
def decode (d : Descriptor) : Except DecodeError Instr :=
  if opField d.w0 = 1 then
    if rsvField d.w0 ≠ 0 then .error .reservedBits
    else .ok (.load (Direction.ofCode (dirField d.w0)) (modeField d.w0) (padField d.w0)
      d.w1 d.w2 d.w3 d.w4)
  else if opField d.w0 = 2 then formatT d.w0 (.block d.w1 d.w2 d.w3)
  else if opField d.w0 = 3 then formatT d.w0 (.final d.w1 d.w2 d.w3)
  else .error .unknownOp

/-- The command word of LOAD: RSV, PAD, MODE, DIR and OP from bit 31 down (R46). -/
def loadWord (dir : Direction) (mode pad : BitVec 3) : Word :=
  (0 : BitVec 17) ++ pad ++ mode ++ dir.code ++ (0x01 : BitVec 8)

/-- The descriptor of a command (R46, R47), with `W4 = 0` for BLOCK and FINAL (R58). -/
def encode : Instr → Descriptor
  | .load dir mode pad keyAddr keyLen ivAddr ivLen =>
    ⟨loadWord dir mode pad, keyAddr, keyLen, ivAddr, ivLen⟩
  | .block inAddr inCount outAddr => ⟨0x00000002, inAddr, inCount, outAddr, 0⟩
  | .final inAddr inCount outAddr => ⟨0x00000003, inAddr, inCount, outAddr, 0⟩

/-- The descriptor whose bits are `w`, W0 in bits 31:0, W1 above it and so on; every bit at or above
`nbits` is 0. -/
def descriptorOfBits (nbits w : Nat) : Descriptor :=
  let v := w % 2 ^ nbits
  ⟨BitVec.ofNat 32 v, BitVec.ofNat 32 (v / 2 ^ 32), BitVec.ofNat 32 (v / 2 ^ 64),
    BitVec.ofNat 32 (v / 2 ^ 96), BitVec.ofNat 32 (v / 2 ^ 128)⟩

/-- What the decoder reads from the descriptor whose bits are `w`. -/
def decodeTableWord (nbits w : Nat) : Option Instr :=
  match decode (descriptorOfBits nbits w) with
  | .ok i => some i
  | .error _ => none

/-- `<dir>` of the textual form (R58). -/
def Direction.text : Direction → String
  | .encrypt => "ENC"
  | .decrypt => "DEC"

/-- `<mode>` of the textual form (R58). -/
def modeText (code : BitVec 3) : String :=
  if code = 0 then "ECB" else if code = 1 then "CBC" else "MODE#" ++ code.toNat.repr

/-- `<pad>` of the textual form (R58). -/
def padText (code : BitVec 3) : String :=
  if code = 0 then "NONE" else if code = 1 then "PKCS7" else if code = 2 then "ANSIX923"
  else if code = 3 then "ISO10126" else if code = 4 then "ZEROS" else "PAD#" ++ code.toNat.repr

/-- `@addr:n` of the textual form, in decimal (R58). -/
def rangeText (addr n : Word) : String := "@" ++ addr.toNat.repr ++ ":" ++ n.toNat.repr

/-- The textual form of a command (R58). Each line assembles to one descriptor, by `encode`. -/
def Instr.text : Instr → String
  | .load dir mode pad keyAddr keyLen ivAddr ivLen =>
    "LOAD " ++ dir.text ++ ", " ++ modeText mode ++ ", " ++ padText pad ++ ", key="
      ++ rangeText keyAddr keyLen ++ ", iv=" ++ rangeText ivAddr ivLen
  | .block inAddr inCount outAddr =>
    "BLOCK in=" ++ rangeText inAddr inCount ++ ", out=@" ++ outAddr.toNat.repr
  | .final inAddr inCount outAddr =>
    "FINAL in=" ++ rangeText inAddr inCount ++ ", out=@" ++ outAddr.toNat.repr

end Sys2Proof
end

