-- ==== Sys2Proof/Config.lean ====
section
/-! DEFINITION. What an implementation fixes (the platform's parameters and the engine's bounds, R7)
and the values the spec leaves free. A free value is an opaque constant: nothing can be proved of it,
so whatever is proved holds for every value it may take. -/

namespace Sys2Proof

/-- The two kinds of access `MEM_ADMIT` tells apart (R32). -/
inductive AccessKind where
  | read
  | write
deriving DecidableEq, Repr

/-- One entry of the table that holds `MEM_ADMIT` (R7, R32; assumption 4). -/
inductive Grant where
  /-- Every range of this kind that lies inside these bytes is admitted. -/
  | within (kind : AccessKind) (base size : Nat)
  /-- This one range is admitted, and no part of it by that. -/
  | exact (kind : AccessKind) (base size : Nat)
deriving DecidableEq, Repr

/-- The platform's two parameters: ADDR_BITS, and the table of the predicate MEM_ADMIT (R7, R32;
assumption 4). They are data of the state that no step writes, so that a statement about every state
is a statement about every platform. Every predicate on ranges has such a table
(`exists_platform`, Laws/Commands.lean). -/
structure Platform where
  addrBits : Nat
  grants : List Grant
deriving DecidableEq, Repr

/-- ADDR_BITS at its default of 32 (R7), and every range of that address space granted
(DESIGN CHOICE, assumption 5: the spec gives MEM_ADMIT no default). -/
def Platform.default : Platform where
  addrBits := 32
  grants := [.within .read 0 (2 ^ 32), .within .write 0 (2 ^ 32)]

namespace Config

/-- MAX_IN_COUNT = 2^32 - 17 (R7). -/
def maxInCount : Nat := 2 ^ 32 - 17

/-- Free value: byte `i` of the ISO10126 pad draw numbered `draw` (R94, parameter ISO_RAND;
assumption 6). -/
opaque isoRand : (draw i : Nat) → Byte

/-- Free value: what the working registers X hold after a command has used them (R24;
assumption 7). -/
opaque scratch : (draw : Nat) → Vector Word 4

/-- Free value: how many bytes of the last block the output range of a FINAL leaves out at the admission
check when the padding is then rejected, so that the command has no output length (R138; assumption
9). -/
opaque rejectedStrip : (draw : Nat) → Fin 17

/-- Free value: whether a reset that cuts a command short leaves the command's new byte at an
address, or the old one (R150; assumption 8). -/
opaque resetKept : (draw addr : Nat) → Bool

end Config

end Sys2Proof
end

