-- ==== Sys2Proof/Machine/State.lean ====
section
/-! DEFINITION. The state of the engine (R10), with the host's memory, the platform's parameters and
the host's remaining sequence of events, all as plain data; the reasons a step can stop; and reset. -/

namespace Sys2Proof.Machine

/-- `PHASE` (R11). The code 3 is never produced, so there are three values. -/
inductive Phase where
  | unbuilt
  | ready
  | failed
deriving DecidableEq, Repr

/-- `STATUS` (R16). -/
inductive Status where
  | ok
  | configurationError
  | usageError
  | paddingValidationError
deriving DecidableEq, Repr

/-- MEM (R30): the (address, byte) pairs that differ from what an unlisted address reads as,
addresses strictly rising. -/
abbrev Memory := List Host.Cell

/-- What the host does, one event at a time, each between two commands (R5, R41, R150; DESIGN CHOICE,
assumption 1). -/
inductive HostEvent where
  /-- Issue a command and wait for its response (R5, R45). -/
  | command (d : Descriptor)
  /-- Issue a command if the last response was OK, else do nothing (the second half of the
  pseudo-commands, R59; assumption 14). -/
  | commandIfOk (d : Descriptor)
  /-- Store bytes into MEM (R30, R41 (a)). -/
  | store (addr : Nat) (bytes : List Byte)
  /-- Reset between two commands (R150). -/
  | reset
  /-- Issue a command and reset the engine before its response (R150). -/
  | resetDuring (d : Descriptor)
deriving DecidableEq, Repr

/-- Why a step can stop with a fault. -/
inductive Fault where
  /-- A command reads a range that is not admitted, or passes the top of the address space: it has no
  step and never completes (R32). Raised by LOAD, BLOCK and FINAL. Safe: the spec says stuck. -/
  | stuckRead (addr n : Nat)
  /-- A command writes a range that is not admitted, or passes the top of the address space (R32, R38).
  Raised by BLOCK and FINAL. Safe: the spec says stuck. -/
  | stuckWrite (addr n : Nat)
  /-- The host stores at an address that does not exist (R30). Raised by the host's own store event,
  never by a command. Safe: the model stops. -/
  | hostStoreOutside (addr n : Nat)
deriving DecidableEq, Repr

/-- Why a step can be refused. -/
inductive Refusal where
  /-- An instruction with no meaning yet. Raised by no arm of this model. Safe. -/
  | notModelled (mnemonic : String)
deriving DecidableEq, Repr

/-- The whole state. The first twelve fields are the registers of R10; `mem` is the host's memory
(R30); `platform` holds the parameters of R7; `host` and `draws` are the model's own: the events the
host has still to make (R5: the "program" is the sequence of commands the host issues) and how many
draws of free values have been made (DESIGN CHOICE, assumptions 1 and 18). -/
structure State where
  phase : Phase
  dir : Direction
  mode : Mode
  pad : Padding
  rk : RoundKeys
  iv : Block
  lb : Block
  wb : Block
  hasWb : Bool
  status : Status
  count : BitVec 32
  x : Vector Word 4
  mem : Memory
  platform : Platform
  host : List HostEvent
  draws : Nat
deriving DecidableEq, Repr

/-- The state after reset (R28, R150): PHASE = UNBUILT and every register zero. X is unspecified
there; the model names zero (DESIGN CHOICE, assumption 3). Memory lists nothing, no event is pending,
and the platform is the default one. -/
def State.reset : State where
  phase := .unbuilt
  dir := .encrypt
  mode := .ecb
  pad := .none
  rk := Vector.replicate 32 0
  iv := Block.zero
  lb := Block.zero
  wb := Block.zero
  hasWb := false
  status := .ok
  count := 0
  x := Vector.replicate 4 0
  mem := []
  platform := Platform.default
  host := []
  draws := 0

end Sys2Proof.Machine
end

