-- ==== Sys2Proof/Machine/Ops.lean ====
section
/-! DEFINITION. The named operations over memory and registers, and the one shared error entry with
the way out of it: `MemRead`, `MemWrite` (R9, R31, R32), the response (R54), error entry (R134 to
R137), and reset of the engine (R150). -/

namespace Sys2Proof.Machine

/-- What an address reads as when memory lists no byte for it (DESIGN CHOICE, assumption 2). -/
def Memory.unlisted (_addr : Nat) : Byte := 0

/-- The byte at an address. -/
def Memory.read : Memory → Nat → Byte
  | [], a => Memory.unlisted a
  | (k, v) :: m, a => if a = k then v else Memory.read m a

/-- Adds an entry before the first entry with a higher address. -/
def Memory.place : Memory → Nat → Byte → Memory
  | [], a, v => [(a, v)]
  | (k, w) :: m, a, v => if a < k then (a, v) :: (k, w) :: m else (k, w) :: Memory.place m a v

/-- Sets the byte at an address, listing it only if it differs from what the address reads as
unlisted. -/
def Memory.write (m : Memory) (a : Nat) (v : Byte) : Memory :=
  let others := m.filter fun c => !decide (c.1 = a)
  if v = Memory.unlisted a then others else Memory.place others a v

/-- The byte string at `a, a+1, …`, lowest address first (R31). -/
def Memory.readBytes (m : Memory) (a : Nat) : Nat → List Byte
  | 0 => []
  | n + 1 => m.read a :: Memory.readBytes m (a + 1) n

/-- Stores a byte string at `a, a+1, …`, its first byte at `a` (R31). -/
def Memory.writeBytes (m : Memory) (a : Nat) : List Byte → Memory
  | [] => m
  | b :: bs => Memory.writeBytes (m.write a b) (a + 1) bs

/-- The canonical form: addresses strictly rising, and no entry equal to what its address reads as
unlisted. -/
def Memory.wf : Memory → Bool
  | [] => true
  | (k, v) :: m => decide (v ≠ Memory.unlisted k) && m.all (fun c => decide (k < c.1)) && Memory.wf m

/-- `old` with the bytes of `new` at the addresses `pick` chooses (for R150). -/
def Memory.blend (old new : Memory) (pick : Nat → Bool) : Memory :=
  (new.map (·.1) ++ old.map (·.1)).foldl
    (fun m a => if pick a then m.write a (new.read a) else m) old

/-- The ranges one entry of the platform's table admits. -/
def grantAdmits (g : Grant) (kind : AccessKind) (addr n : Nat) : Bool :=
  match g with
  | .within k base size =>
    decide (k = kind) && decide (base ≤ addr) && decide (addr + n ≤ base + size)
  | .exact k base size => decide (k = kind) && decide (base = addr) && decide (size = n)

/-- `MEM_ADMIT(addr, n, kind)` together with the top of the address space (R32): a range of length 0
is always admitted; any other lies below 2^ADDR_BITS and is one that the platform admits. -/
def admits (p : Platform) (kind : AccessKind) (addr n : Nat) : Bool :=
  decide (n = 0) ||
    (decide (addr + n ≤ 2 ^ p.addrBits) && p.grants.any fun g => grantAdmits g kind addr n)

/-- `MemRead(addr, n)` (R9, R31), or stuck where the range is not admitted (R32). -/
def State.memRead (s : State) (addr n : Nat) : Except Fault (List Byte) :=
  if admits s.platform .read addr n then .ok (s.mem.readBytes addr n)
  else .error (.stuckRead addr n)

/-- Admission of an output range (R32, step (4) of R138): nothing, or stuck. -/
def State.reserve (s : State) (addr n : Nat) : Except Fault Unit :=
  if admits s.platform .write addr n then .ok () else .error (.stuckWrite addr n)

/-- `MemWrite(addr, len(bytes), bytes)` into a range that has been admitted (R9, R31). -/
def State.memWrite (s : State) (addr : Nat) (bytes : List Byte) : State :=
  { s with mem := s.mem.writeBytes addr bytes }

/-- `respond(status, count)` (R9, R54): the response registers are written. -/
def State.respond (s : State) (status : Status) (count : Nat) : State :=
  { s with status := status, count := BitVec.ofNat 32 count }

/-- The working registers X have been used: they hold a free value (R24). -/
def State.clobberX (s : State) : State :=
  { s with x := Config.scratch s.draws, draws := s.draws + 1 }

/-- Step 1 of LOAD (R111): any earlier pipeline is discarded. It is the only way out of the FAILED
phase but for reset (R140). -/
def State.discard (s : State) : State :=
  { s with
    phase := .unbuilt, dir := .encrypt, mode := .ecb, pad := .none,
    rk := Vector.replicate 32 0, iv := Block.zero, lb := Block.zero, wb := Block.zero,
    hasWb := false }

/-- LB back to IV and the withheld block cleared: the end of a message (R86, R99, R113). -/
def State.closeMessage (s : State) : State :=
  { s with lb := s.iv, wb := Block.zero, hasWb := false }

/-- An error ended the message in progress (R136 (a), R137). -/
def State.failMessage (s : State) : State :=
  { s.closeMessage with phase := .failed }

/-- The four error entries: the three errors of R130, with the two cases of R136. -/
inductive ErrorEntry where
  /-- R135. -/
  | configuration
  /-- R136 (a): a bad `in_count`, raised while READY. -/
  | usageInMessage
  /-- R136 (b): a command refused outside READY, or an illegal descriptor in any phase. -/
  | usageRefused
  /-- R137. -/
  | padding
deriving DecidableEq, Repr

/-- Raising an error (R134): the one place that says what state each error leaves and what it
reports. Nothing is written to MEM, and COUNT is 0. -/
def State.raise (s : State) : ErrorEntry → State
  | .configuration => s.discard.respond .configurationError 0
  | .usageInMessage => s.failMessage.respond .usageError 0
  | .usageRefused => s.respond .usageError 0
  | .padding => s.failMessage.respond .paddingValidationError 0

/-- Reset (R150): every register of the engine as after reset; the host's memory, the platform and
the host's own sequence are not the engine's. -/
def State.resetEngine (s : State) : State :=
  { State.reset with mem := s.mem, platform := s.platform, host := s.host, draws := s.draws }

/-- The end of a command that succeeds: its output is written, then it responds (R112, R113). -/
def State.deliver (s : State) (outAddr : Nat) (out : List Byte) : State :=
  (s.memWrite outAddr out).respond .ok out.length

end Sys2Proof.Machine
end

