-- ==== Sys2Proof/Machine/Operands.lean ====
section
/-! DEFINITION. The operand forms: the codes of the configuration fields and registers (R11, R13 to
R16, R49 to R51), LOAD's validation of its operands (R111 step 2), the length checks of BLOCK and
FINAL (R112, R113), and how a block is taken from a byte string (R8). -/

namespace Sys2Proof.Machine

/-- The mode a `MODE` code names; 2 to 7 name none (R50). -/
def modeOfCode (c : BitVec 3) : Option Mode :=
  if c = 0 then some .ecb else if c = 1 then some .cbc else none

/-- The padding a `PAD` code names; 5 to 7 name none (R51). -/
def paddingOfCode (c : BitVec 3) : Option Padding :=
  if c = 0 then some .none else if c = 1 then some .pkcs7 else if c = 2 then some .ansix923
  else if c = 3 then some .iso10126 else if c = 4 then some .zeros else none

/-- The `MODE` register's code (R14). -/
def modeCode : Mode → BitVec 3
  | .ecb => 0
  | .cbc => 1

/-- The `PAD` register's code (R15). -/
def paddingCode : Padding → BitVec 3
  | .none => 0
  | .pkcs7 => 1
  | .ansix923 => 2
  | .iso10126 => 3
  | .zeros => 4

/-- The `PHASE` register's code (R11). -/
def phaseCode : Phase → BitVec 2
  | .unbuilt => 0
  | .ready => 1
  | .failed => 2

/-- The `STATUS` register's code (R16). -/
def statusCode : Status → BitVec 2
  | .ok => 0
  | .configurationError => 1
  | .usageError => 2
  | .paddingValidationError => 3

/-- Step 2 of LOAD, in its order (R111): the configuration the operands name, or none where the
command raises ConfigurationError. -/
def loadConfiguration (mode pad : BitVec 3) (keyLen ivLen : Word) : Option (Mode × Padding) :=
  if keyLen.toNat ≠ 16 then none
  else match modeOfCode mode with
    | none => none
    | some m =>
      if m = .cbc ∧ ivLen.toNat ≠ 16 then none
      else match paddingOfCode pad with
        | none => none
        | some p => some (m, p)

/-- BLOCK raises UsageError for this `in_count` (R112). -/
def badBlockCount (n : Nat) : Bool := decide (n % 16 ≠ 0) || decide (Config.maxInCount < n)

/-- FINAL raises UsageError for this `in_count` (R113). -/
def badFinalCount (dir : Direction) (pad : Padding) (n : Nat) : Bool :=
  decide (Config.maxInCount < n) ||
    (decide (dir = .decrypt ∨ pad = .none) && decide (n % 16 ≠ 0))

/-- The block that the first 16 bytes of a string make. -/
def blockOfBytes (bs : List Byte) : Block := Vector.ofFn fun i => bs.getD i.1 0

/-- The first `q` blocks of a string, in order (R84). -/
def blocksOf : (q : Nat) → List Byte → List Block
  | 0, _ => []
  | q + 1, bs => blockOfBytes (bs.take 16) :: blocksOf q (bs.drop 16)

/-- The blocks one after the other, as a string. -/
def bytesOf : List Block → List Byte
  | [] => []
  | b :: bs => b.toList ++ bytesOf bs

/-- The last 16 bytes of a string, as a block (R98, R99). -/
def lastBlock (bs : List Byte) : Block := blockOfBytes (bs.drop (bs.length - 16))

/-- Exclusive-or of two blocks, byte by byte (R8). -/
def xorBlocks (a b : Block) : Block := Vector.zipWith (· ^^^ ·) a b

/-- The output capacity a host can compute before a command (R38). -/
def outputCapacity : Instr → Nat
  | .load _ _ _ _ _ _ _ => 0
  | .block _ inCount _ => inCount.toNat
  | .final _ inCount _ => inCount.toNat + 16

end Sys2Proof.Machine
end

