-- ==== Sys2Proof/Machine/Cipher.lean ====
section
/-! DEFINITION. The SM4 core (R60 to R76): the constant tables, the round functions, the key schedule
and the single-block transform. Pure functions, which set no flag, touch no memory and raise nothing.
The table values are the spec's (R60 to R62; its own mark on them is "from general knowledge, not in
source"; assumption 17). -/

namespace Sys2Proof.Machine

/-- The rows of the S-box table, row `h` holding `SBOX[0xh0]` to `SBOX[0xhf]`, first entry in the
highest byte (R60). -/
def sboxRows : List (BitVec 128) :=
  [0xd690e9fecce13db716b614c228fb2c05,
   0x2b679a762abe04c3aa44132649860699,
   0x9c4250f491ef987a33540b43edcfac62,
   0xe4b31ca9c908e89580df94fa758f3fa6,
   0x4707a7fcf37317ba83593c19e6854fa8,
   0x686b81b27164da8bf8eb0f4b70569d35,
   0x1e240e5e6358d1a225227c3b01217887,
   0xd40046579fd327524c3602e7a0c4c89e,
   0xeabf8ad240c738b5a3f7f2cef96115a1,
   0xe0ae5da49b341a55ad933230f58cb1e3,
   0x1df6e22e8266ca60c02923ab0d534e6f,
   0xd5db3745defd8e2f03ff6a726d6c5b51,
   0x8d1baf92bbddbc7f11d95c411f105ad8,
   0x0ac13188a5cd7bbd2d74d012b8e5b4b0,
   0x8969974a0c96777e65b9f109c56ec684,
   0x18f07dec3adc4d2079ee5f3ed7cb3948]

/-- `SBOX[x]` (R60). -/
def sbox (x : Byte) : Byte :=
  (sboxRows.getD (x.toNat / 16) 0).extractLsb' (8 * (15 - x.toNat % 16)) 8

/-- `FK[0..3]` (R61). -/
def fk : Vector Word 4 := #v[0xa3b1bac6, 0x56aa3350, 0x677d9197, 0xb27022dc]

/-- `CK[0..31]`, literally (R62). -/
def ck : List Word :=
  [0x00070e15, 0x1c232a31, 0x383f464d, 0x545b6269] ++
  [0x70777e85, 0x8c939aa1, 0xa8afb6bd, 0xc4cbd2d9] ++
  [0xe0e7eef5, 0xfc030a11, 0x181f262d, 0x343b4249] ++
  [0x50575e65, 0x6c737a81, 0x888f969d, 0xa4abb2b9] ++
  [0xc0c7ced5, 0xdce3eaf1, 0xf8ff060d, 0x141b2229] ++
  [0x30373e45, 0x4c535a61, 0x686f767d, 0x848b9299] ++
  [0xa0a7aeb5, 0xbcc3cad1, 0xd8dfe6ed, 0xf4fb0209] ++
  [0x10171e25, 0x2c333a41, 0x484f565d, 0x646b7279]

/-- `be32` of four bytes, the first the most significant (R8, R33). -/
def be32 (b0 b1 b2 b3 : Byte) : Word := b0 ++ b1 ++ b2 ++ b3

/-- Byte `k` of a word, byte 0 the most significant: `bytes_be(w)[k]` (R8). -/
def byteOf (w : Word) (k : Nat) : Byte := w.extractLsb' (8 * (3 - k)) 8

/-- Word `j` of a block (R8, R33). -/
def wordOf (b : Block) (j : Fin 4) : Word :=
  be32 b[4 * j.1] b[4 * j.1 + 1] b[4 * j.1 + 2] b[4 * j.1 + 3]

/-- The block whose words are given, each as big-endian bytes (R33). -/
def blockOfWords (w0 w1 w2 w3 : Word) : Block :=
  #v[byteOf w0 0, byteOf w0 1, byteOf w0 2, byteOf w0 3,
     byteOf w1 0, byteOf w1 1, byteOf w1 2, byteOf w1 3,
     byteOf w2 0, byteOf w2 1, byteOf w2 2, byteOf w2 3,
     byteOf w3 0, byteOf w3 1, byteOf w3 2, byteOf w3 3]

/-- `rotl(w, n)` (R8). -/
def rotl (w : Word) (n : Nat) : Word := w.rotateLeft n

/-- `tau(x)`: the S-box on each byte (R64). -/
def tau (x : Word) : Word :=
  be32 (sbox (byteOf x 0)) (sbox (byteOf x 1)) (sbox (byteOf x 2)) (sbox (byteOf x 3))

/-- `L(B)`, the linear map of the block transform (R65). -/
def mapL (b : Word) : Word := b ^^^ rotl b 2 ^^^ rotl b 10 ^^^ rotl b 18 ^^^ rotl b 24

/-- `Lp(B)`, the linear map of the key schedule (R66). -/
def mapLp (b : Word) : Word := b ^^^ rotl b 13 ^^^ rotl b 23

/-- `T(x) = L(tau(x))` (R67). -/
def mapT (x : Word) : Word := mapL (tau x)

/-- `Tp(x) = Lp(tau(x))` (R68). -/
def mapTp (x : Word) : Word := mapLp (tau x)

/-- The recurrence of the key schedule on the window `K[i..i+3]`, one step per CK value (R69). -/
def expandFrom : List Word → Word → Word → Word → Word → List Word
  | [], _, _, _, _ => []
  | c :: cs, k0, k1, k2, k3 =>
    let k4 := k0 ^^^ mapTp (k1 ^^^ k2 ^^^ k3 ^^^ c)
    k4 :: expandFrom cs k1 k2 k3 k4

/-- The recurrence makes one word per CK value. -/
theorem expandFrom_length (cs : List Word) (k0 k1 k2 k3 : Word) :
    (expandFrom cs k0 k1 k2 k3).length = cs.length := by
  induction cs generalizing k0 k1 k2 k3 with
  | nil => rfl
  | cons c cs ih => simp [expandFrom, ih]

/-- `KeyExpand(key)`: the forward schedule `rk[0..31]` (R69). -/
def keyExpand (key : Block) : RoundKeys :=
  ⟨(expandFrom ck (wordOf key 0 ^^^ fk[0]) (wordOf key 1 ^^^ fk[1]) (wordOf key 2 ^^^ fk[2])
      (wordOf key 3 ^^^ fk[3])).toArray,
    by simp [expandFrom_length, ck]⟩

/-- `KeySchedule(key, dir)`: the schedule in use order, reversed for decryption (R70). -/
def keySchedule (key : Block) (dir : Direction) : RoundKeys :=
  match dir with
  | .encrypt => keyExpand key
  | .decrypt => (keyExpand key).reverse

/-- The rounds on the window `X[r..r+3]`, one per round key (R71): the last window. -/
def rounds : List Word → Word → Word → Word → Word → Word × Word × Word × Word
  | [], x0, x1, x2, x3 => (x0, x1, x2, x3)
  | k :: ks, x0, x1, x2, x3 => rounds ks x1 x2 x3 (x0 ^^^ mapT (x1 ^^^ x2 ^^^ x3 ^^^ k))

/-- `BlockTransform(RK, b)` (R71): 32 rounds, then the last four words in reverse order. -/
def blockTransform (rk : RoundKeys) (b : Block) : Block :=
  let w := rounds rk.toList (wordOf b 0) (wordOf b 1) (wordOf b 2) (wordOf b 3)
  blockOfWords w.2.2.2 w.2.2.1 w.2.1 w.1

/-- One round on the four working registers: `X[r mod 4]` is changed in place (R72). -/
def roundInPlace (rk : RoundKeys) (x : Vector Word 4) (r : Fin 32) : Vector Word 4 :=
  let j := r.1 % 4
  x.set j (x[j]'(Nat.mod_lt _ (by decide)) ^^^
    mapT (x[(j + 1) % 4]'(Nat.mod_lt _ (by decide)) ^^^ x[(j + 2) % 4]'(Nat.mod_lt _ (by decide)) ^^^
      x[(j + 3) % 4]'(Nat.mod_lt _ (by decide)) ^^^ rk[r.1])) (Nat.mod_lt _ (by decide))

/-- BlockTransform with the four working registers, as the engine uses them (R72). -/
def blockTransformInPlace (rk : RoundKeys) (b : Block) : Block :=
  let x := (List.finRange 32).foldl (roundInPlace rk)
    #v[wordOf b 0, wordOf b 1, wordOf b 2, wordOf b 3]
  blockOfWords x[3] x[2] x[1] x[0]

end Sys2Proof.Machine
end

