-- ==== Sys2Proof/Machine/Chain.lean ====
section
/-! DEFINITION. The mode layer (R80 to R86): ChainBlock and Chain. They read MODE, DIR, RK and LB and
write LB only. -/

namespace Sys2Proof.Machine

/-- What the mode layer reads and does not write. -/
structure Pipeline where
  mode : Mode
  dir : Direction
  rk : RoundKeys
deriving DecidableEq, Repr

/-- The pipeline the engine holds. -/
def State.pipeline (s : State) : Pipeline := ⟨s.mode, s.dir, s.rk⟩

/-- `ChainBlock(b)`: the block moved through the mode layer, and the new LB (R81 to R83). -/
def chainBlock (p : Pipeline) (lb b : Block) : Block × Block :=
  match p.mode, p.dir with
  | .ecb, _ => (blockTransform p.rk b, lb)
  | .cbc, .encrypt =>
    let c := blockTransform p.rk (xorBlocks b lb)
    (c, c)
  | .cbc, .decrypt => (xorBlocks (blockTransform p.rk b) lb, b)

/-- ChainBlock over blocks in order, first block first: the results and the last LB (R84). -/
def chainBlocks (p : Pipeline) : (lb : Block) → List Block → List Block × Block
  | lb, [] => ([], lb)
  | lb, b :: bs =>
    let r := chainBlock p lb b
    let rs := chainBlocks p r.2 bs
    (r.1 :: rs.1, rs.2)

/-- `Chain(s)` for a string of whole blocks: the output string and the new LB (R84). -/
def chain (p : Pipeline) (lb : Block) (m : List Byte) : List Byte × Block :=
  let r := chainBlocks p lb (blocksOf (m.length / 16) m)
  (bytesOf r.1, r.2)

/-- Chain on the engine's state: LB moves on, and X is left with a free value if a block went
through (R24, R84). -/
def State.runChain (s : State) (m : List Byte) : List Byte × State :=
  let r := chain s.pipeline s.lb m
  (r.1, if m = [] then s else State.clobberX { s with lb := r.2 })

end Sys2Proof.Machine
end

