-- ==== Sys2Proof/Machine/Flags.lean ====
section
/-! DEFINITION. The engine's one condition flag, HAS_WB (R23), with the withheld block WB it guards
(R22). No arithmetic operation sets a flag. -/

namespace Sys2Proof.Machine

/-- The withheld block as a string: WB if HAS_WB = 1, else nothing (R99). -/
def State.withheld (s : State) : List Byte := if s.hasWb then s.wb.toList else []

/-- A block is withheld: WB is written and HAS_WB set (R98). -/
def State.withhold (s : State) (b : Block) : State := { s with wb := b, hasWb := true }

end Sys2Proof.Machine
end

