-- ==== Sys2Proof/Machine/Padding.lean ====
section
/-! DEFINITION. The padding layer (R90 to R106): the encoder, the validators, and the withholding of
one block on decrypt. -/

namespace Sys2Proof.Machine

/-- `PadLen(n)`, a number in 1..16 (R91). -/
def padLen (n : Nat) : Nat := 16 - n % 16

/-- `draw(15)`: the ISO10126 draw of one FINAL command, a free value (R9, R94). -/
def isoDraw (draw : Nat) : List Byte := (List.range 15).map (Config.isoRand draw)

/-- `PadBytes(PAD, k)` (R92 to R95), with the draw that ISO10126 takes its bytes from. -/
def padBytes (pad : Padding) (k : Nat) (draw : List Byte) : List Byte :=
  match pad with
  | .none => []
  | .pkcs7 => List.replicate k (BitVec.ofNat 8 k)
  | .ansix923 => List.replicate (k - 1) 0 ++ [BitVec.ofNat 8 k]
  | .iso10126 => draw.take (k - 1) ++ [BitVec.ofNat 8 k]
  | .zeros => List.replicate k 0

/-- The pad-length byte of the last block (R100 to R102). -/
def padByte (last : Block) : Nat := last[15].toNat

/-- The check of the pad-length byte: 0, or above 16 (R100 to R102). -/
def badLength (last : Block) : Bool := decide (padByte last = 0) || decide (16 < padByte last)

/-- The scan over the first `n` bytes of the last block, whole, with no early exit (R100, R101, R104):
some byte from index 16 - k on is not the expected one. -/
def badPad (last : Block) (expected : Byte) : (n : Nat) → Bool
  | 0 => false
  | n + 1 =>
    (decide (16 - padByte last ≤ n) && decide (last.toList.getD n 0 ≠ expected)) ||
      badPad last expected n

/-- How many zero bytes end a string (R103). -/
def trailingZeros (bs : List Byte) : Nat := (bs.reverse.takeWhile fun b => decide (b = 0)).length

/-- `Validate(PAD, last)` (R100 to R103): how many bytes to strip, or none where it raises
PaddingValidationError. -/
def validate (pad : Padding) (last : Block) : Option Nat :=
  match pad with
  | .none => some 0
  | .pkcs7 => if badLength last || badPad last last[15] 16 then none else some (padByte last)
  | .ansix923 => if badLength last || badPad last 0 15 then none else some (padByte last)
  | .iso10126 => if badLength last then none else some (padByte last)
  | .zeros => some (trailingZeros last.toList)

/-- The padded buffer of EncryptFinal (R97). -/
def padded (pad : Padding) (m draw : List Byte) : List Byte :=
  m ++ padBytes pad (padLen m.length) draw

/-- `EncryptFinal(m)` (R97). -/
def encryptFinal (m : List Byte) (s : State) : List Byte × State :=
  s.runChain (padded s.pad m (isoDraw s.draws))

/-- `DecryptBlock(c)` (R98): one block is always held back. -/
def decryptBlock (c : List Byte) (s : State) : List Byte × State :=
  let r := s.runChain c
  if c = [] then ([], s)
  else (s.withheld ++ r.1.take (r.1.length - 16), r.2.withhold (lastBlock r.1))

/-- The whole tail of the message on decrypt: the withheld block, then what is left (R99). -/
def fullTail (c : List Byte) (s : State) : List Byte := s.withheld ++ (s.runChain c).1

/-- `DecryptFinal(c)` (R99): the output, or none where it raises PaddingValidationError, for a bad
pad or for no block at all (R105). -/
def decryptFinal (c : List Byte) (s : State) : Option (List Byte) × State :=
  let full := fullTail c s
  (if full = [] then none
   else (validate s.pad (lastBlock full)).map fun strip => full.take (full.length - strip),
   (s.runChain c).2)

/-- What BLOCK outputs (R112): decrypt with padding withholds a block, everything else goes straight
to the mode layer (R96). -/
def blockOutput (c : List Byte) (s : State) : List Byte × State :=
  if s.dir = .decrypt ∧ s.pad ≠ .none then decryptBlock c s else s.runChain c

/-- What FINAL outputs (R113), or none where DecryptFinal raises. -/
def finalOutput (m : List Byte) (s : State) : Option (List Byte) × State :=
  if s.pad = .none then let r := s.runChain m; (some r.1, r.2)
  else match s.dir with
    | .encrypt => let r := encryptFinal m s; (some r.1, r.2)
    | .decrypt => decryptFinal m s

/-- The length of FINAL's output range at its admission check (step (4) of R138). It is the number of
bytes FINAL writes (R37, R38). Where the padding is rejected afterwards there is no such number, and
the spec names none: the length is then a free value among those an accepted pad would give, the whole
tail less 0 to 16 bytes, and 0 where there is no block (DESIGN CHOICE, assumption 9). -/
def outputLength (m : List Byte) (s : State) : Nat :=
  match (finalOutput m s).1 with
  | some out => out.length
  | none => (fullTail m s).length - (Config.rejectedStrip s.draws).val

end Sys2Proof.Machine
end

