-- ==== Sys2Proof/Machine/Block.lean ====
section
/-! DEFINITION. BLOCK (R112). -/

namespace Sys2Proof.Machine

/-- BLOCK (R112): moves whole blocks and keeps the message open. All reading comes before any
writing, so output may overlap input (R36, assumption 10). -/
def execBlock (inAddr inCount outAddr : Word) (s : State) : Host.Outcome State Fault Refusal :=
  if s.phase ≠ .ready then .next (s.raise .usageRefused)
  else if badBlockCount inCount.toNat then .next (s.raise .usageInMessage)
  else match s.memRead inAddr.toNat inCount.toNat with
    | .error f => .fault f
    | .ok c =>
      let r := blockOutput c s
      match s.reserve outAddr.toNat r.1.length with
      | .error f => .fault f
      | .ok _ => .next (r.2.deliver outAddr.toNat r.1)

end Sys2Proof.Machine
end

