-- ==== Sys2Proof/Machine/Final.lean ====
section
/-! DEFINITION. FINAL (R113). -/

namespace Sys2Proof.Machine

/-- FINAL (R113): moves the rest of the message, adds or checks and strips padding, and closes the
message. The checks run in the order of R138: phase, length, input range, output range, padding. -/
def execFinal (inAddr inCount outAddr : Word) (s : State) : Host.Outcome State Fault Refusal :=
  if s.phase ≠ .ready then .next (s.raise .usageRefused)
  else if badFinalCount s.dir s.pad inCount.toNat then .next (s.raise .usageInMessage)
  else match s.memRead inAddr.toNat inCount.toNat with
    | .error f => .fault f
    | .ok m =>
      match s.reserve outAddr.toNat (outputLength m s) with
      | .error f => .fault f
      | .ok _ =>
        let r := finalOutput m s
        match r.1 with
        | none => .next (r.2.raise .padding)
        | some out => .next (r.2.closeMessage.deliver outAddr.toNat out)

end Sys2Proof.Machine
end

