-- ==== Sys2Proof/Machine/Load.lean ====
section
/-! DEFINITION. LOAD (R111). -/

namespace Sys2Proof.Machine

/-- Step 4 of LOAD: the pipeline is built. KeyExpand has used X (R24). -/
def State.build (s : State) (dir : Direction) (mode : Mode) (pad : Padding) (key iv : Block) :
    State :=
  State.clobberX
    { s with
      phase := .ready, dir := dir, mode := mode, pad := pad, rk := keySchedule key dir,
      iv := iv, lb := iv, wb := Block.zero, hasWb := false }

/-- The IV bytes: read in CBC mode, sixteen zeros in ECB mode, where the IV operands are ignored
(R111 step 3 and corner case (a); assumption 11). -/
def State.readIv (s : State) (mode : Mode) (ivAddr : Nat) : Except Fault (List Byte) :=
  match mode with
  | .cbc => s.memRead ivAddr 16
  | .ecb => .ok (List.replicate 16 0)

/-- LOAD (R111): discard, validate, read key and IV once, build. -/
def execLoad (dir : Direction) (mode pad : BitVec 3) (keyAddr keyLen ivAddr ivLen : Word)
    (s : State) : Host.Outcome State Fault Refusal :=
  let s1 := s.discard
  match loadConfiguration mode pad keyLen ivLen with
  | none => .next (s1.raise .configuration)
  | some (m, p) =>
    match s1.memRead keyAddr.toNat 16 with
    | .error f => .fault f
    | .ok key =>
      match s1.readIv m ivAddr.toNat with
      | .error f => .fault f
      | .ok iv => .next ((s1.build dir m p (blockOfBytes key) (blockOfBytes iv)).respond .ok 0)

end Sys2Proof.Machine
end

