-- ==== Sys2Proof/Machine/Dispatch.lean ====
section
/-! DEFINITION. The dispatch of a decoded command to its meaning, one arm per row of
spec/opcode_table.json. -/

namespace Sys2Proof.Machine

def exec (i : Instr) (s : State) : Host.Outcome State Fault Refusal :=
  match i with
  | .load dir mode pad keyAddr keyLen ivAddr ivLen => Sys2Proof.Machine.execLoad dir mode pad keyAddr keyLen ivAddr ivLen s
  | .block inAddr inCount outAddr => Sys2Proof.Machine.execBlock inAddr inCount outAddr s
  | .final inAddr inCount outAddr => Sys2Proof.Machine.execFinal inAddr inCount outAddr s

end Sys2Proof.Machine
end

