-- ==== Sys2Proof/Machine/Port.lean ====
section
/-! DEFINITION. The command port and the host: what each host event does (R5, R41, R55, R59, R150). -/

namespace Sys2Proof.Machine

/-- One command (R45): its descriptor is decoded and run, or it is illegal (R55). -/
def runCommand (d : Descriptor) (s : State) : Host.Outcome State Fault Refusal :=
  match decode d with
  | .ok i => exec i s
  | .error _ => .next (s.raise .usageRefused)

/-- The host stores bytes into MEM (R30, R41 (a); DESIGN CHOICE, assumption 15). -/
def hostStore (addr : Nat) (bytes : List Byte) (s : State) : Host.Outcome State Fault Refusal :=
  if addr + bytes.length ≤ 2 ^ s.platform.addrBits then
    .next { s with mem := s.mem.writeBytes addr bytes }
  else .fault (.hostStoreOutside addr bytes.length)

/-- Reset in the middle of a command (R150): the command is abandoned, its response is never given,
and any subset of the bytes it would have written may hold the new value. A command that could not
complete would have written nothing (DEDUCED, assumption 8). -/
def abandonCommand (d : Descriptor) (s : State) : State :=
  match runCommand d s with
  | .next t =>
    { t.resetEngine with
      mem := s.mem.blend t.mem (Config.resetKept t.draws), draws := t.draws + 1 }
  | _ => s.resetEngine

/-- One event of the host, run to completion. -/
def hostEvent (e : HostEvent) (s : State) : Host.Outcome State Fault Refusal :=
  match e with
  | .command d => runCommand d s
  | .commandIfOk d => if s.status = .ok then runCommand d s else .next s
  | .store addr bytes => hostStore addr bytes s
  | .reset => .next s.resetEngine
  | .resetDuring d => .next (abandonCommand d s)

/-- A LOAD followed by a FINAL that is issued only if LOAD responds OK: what the pseudo-commands
ENCRYPT and DECRYPT expand to (R59). The mode and the padding are codes, so that every operand the
syntax of R58 writes can be given, MODE#2 to MODE#7 and PAD#5 to PAD#7 among them. -/
def oneShot (dir : Direction) (mode pad : BitVec 3)
    (keyAddr keyLen ivAddr ivLen inAddr inCount outAddr : Word) : List HostEvent :=
  [.command (encode (.load dir mode pad keyAddr keyLen ivAddr ivLen)),
   .commandIfOk (encode (.final inAddr inCount outAddr))]

end Sys2Proof.Machine
end

