-- ==== Sys2Proof/Machine/Step.lean ====
section
/-! DEFINITION. One step: the host's next event, run to completion (R5). With no event left the engine
is idle (R145; DEDUCED, assumption 13). -/

namespace Sys2Proof.Machine

/-- One step of the machine. -/
def step (s : State) : Host.Outcome State Fault Refusal :=
  match s.host with
  | [] => .next s
  | e :: rest => hostEvent e { s with host := rest }

/-- `s` with the command whose descriptor has the bits `w` as the host's next event. -/
def State.withFetchWord (s : State) (nbits w : Nat) : State :=
  { s with host := .command (descriptorOfBits nbits w) :: s.host }

end Sys2Proof.Machine
end

