-- ==== Sys2Proof/Safety.lean ====
section
/-! DEFINITION. What claims are stated in: when a step answers a state, what the host can see (R6,
R26), the invariants of R25, and the invariants of memory. -/

namespace Sys2Proof.Safety

open Sys2Proof.Machine

/-- The step answers a next state: it neither faults nor is refused. -/
def Completes (o : Host.Outcome State Fault Refusal) : Prop := ∃ t, o = .next t

/-- What the host can read (R6, R26): STATUS, COUNT and the bytes of MEM. -/
def visible (s : State) : Status × BitVec 32 × Memory := (s.status, s.count, s.mem)

/-- R25 (a) and (b), on the registers' codes. -/
def LegalCodes (s : State) : Prop :=
  (phaseCode s.phase).toNat ≤ 2 ∧ (modeCode s.mode).toNat ≤ 1 ∧ (paddingCode s.pad).toNat ≤ 4

/-- R25 (c): UNBUILT holds no pipeline. -/
def UnbuiltIsZero (s : State) : Prop :=
  s.phase = .unbuilt →
    s.dir = .encrypt ∧ s.mode = .ecb ∧ s.pad = .none ∧ s.rk = Vector.replicate 32 0 ∧
    s.iv = Block.zero ∧ s.lb = Block.zero ∧ s.wb = Block.zero ∧ s.hasWb = false

/-- R25 (d): a block is withheld only inside a message that is decrypted with padding. -/
def WithheldOnlyOnDecrypt (s : State) : Prop :=
  s.hasWb = true → s.phase = .ready ∧ s.dir = .decrypt ∧ s.pad ≠ .none

/-- R25 (e): no stale plaintext. -/
def NoStaleBlock (s : State) : Prop := s.hasWb = false → s.wb = Block.zero

/-- R25 (f): ECB uses neither IV nor LB. -/
def EcbIsUnchained (s : State) : Prop := s.mode = .ecb → s.iv = Block.zero ∧ s.lb = Block.zero

/-- R25 (g): a failed message has been closed. -/
def FailedIsClosed (s : State) : Prop := s.phase = .failed → s.lb = s.iv ∧ s.hasWb = false

/-- R54: an error reports no bytes. -/
def ErrorCountsZero (s : State) : Prop := s.status ≠ .ok → s.count = 0

/-- The invariants of the registers: R25 (a) to (g), and R54 on COUNT. -/
def Inv (s : State) : Prop :=
  LegalCodes s ∧ UnbuiltIsZero s ∧ WithheldOnlyOnDecrypt s ∧ NoStaleBlock s ∧ EcbIsUnchained s ∧
    FailedIsClosed s ∧ ErrorCountsZero s

/-- The invariants of memory: it is in canonical form, and lists no byte outside the address space. -/
def MemoryInv (s : State) : Prop :=
  s.mem.wf = true ∧ ∀ c ∈ s.mem, c.1 < 2 ^ s.platform.addrBits

/-- An address lies in a range. -/
def InRange (addr n a : Nat) : Prop := addr ≤ a ∧ a < addr + n

/-- `m'` is `m` with the string `out` stored at `addr`: every byte of the range is the string's, and
every byte outside it is as before (R31). -/
def Stored (m : Memory) (addr : Nat) (out : List Byte) (m' : Memory) : Prop :=
  (∀ i, i < out.length → m'.read (addr + i) = out.getD i 0) ∧
    ∀ a, ¬InRange addr out.length a → m'.read a = m.read a

/-- The registers only LOAD and reset write (R13 to R15, R18, R20), the platform's parameters and the
host's sequence are the same. -/
def SameConfiguration (s t : State) : Prop :=
  t.dir = s.dir ∧ t.mode = s.mode ∧ t.pad = s.pad ∧ t.rk = s.rk ∧ t.iv = s.iv ∧
    t.platform = s.platform ∧ t.host = s.host

/-- The message is closed: LB back to IV, no block withheld (R86, R113). -/
def MessageClosed (t : State) : Prop := t.lb = t.iv ∧ t.hasWb = false ∧ t.wb = Block.zero

/-- Every register but X is as R10 and R150 say it is after reset. -/
def EngineAtReset (t : State) : Prop :=
  t.phase = .unbuilt ∧ t.dir = .encrypt ∧ t.mode = .ecb ∧ t.pad = .none ∧
    t.rk = Vector.replicate 32 0 ∧ t.iv = Block.zero ∧ t.lb = Block.zero ∧ t.wb = Block.zero ∧
    t.hasWb = false ∧ t.status = .ok ∧ t.count = 0

/-- The four causes of ConfigurationError (R131). -/
def ConfigurationFault (mode pad : BitVec 3) (keyLen ivLen : Word) : Prop :=
  keyLen.toNat ≠ 16 ∨ (mode.toNat = 1 ∧ ivLen.toNat ≠ 16) ∨ 2 ≤ mode.toNat ∨ 5 ≤ pad.toNat

/-- A bad `in_count` of BLOCK (R112). -/
def BlockCountFault (n : Nat) : Prop := n % 16 ≠ 0 ∨ 2 ^ 32 - 17 < n

/-- A bad `in_count` of FINAL (R113). -/
def FinalCountFault (s : State) (n : Nat) : Prop :=
  2 ^ 32 - 17 < n ∨ ((s.dir = .decrypt ∨ s.pad = .none) ∧ n % 16 ≠ 0)

/-- The length of the ciphertext of a message of `n` bytes (R107). -/
def ciphertextLength (pad : Padding) (n : Nat) : Nat := if pad = .none then n else n + padLen n

/-- The messages that decryption of their ciphertext gives back whole (R108, R115). -/
def ComesBack (pad : Padding) (m : List Byte) : Prop :=
  match pad with
  | .none => m.length % 16 = 0
  | .zeros => m.length % 16 = 0 ∨ m.getLast? ≠ some 0
  | .pkcs7 | .ansix923 | .iso10126 => True

/-- A command word that is no command, in the words of R55. -/
def IllegalWord (w0 : Word) : Prop :=
  (w0.toNat % 256 ≠ 1 ∧ w0.toNat % 256 ≠ 2 ∧ w0.toNat % 256 ≠ 3) ∨ w0.toNat / 2 ^ 15 ≠ 0 ∨
    ((w0.toNat % 256 = 2 ∨ w0.toNat % 256 = 3) ∧ w0.toNat / 2 ^ 8 % 2 ^ 7 ≠ 0)

end Sys2Proof.Safety
end

