-- ==== Sys2Proof/Certificates/Slice0/Obligations.lean ====
section
/-! DEFINITION. The statements about this machine, one `def Obligations.<Name> : Prop` each, from the
numbered rules of spec/. They are stated here and proved nowhere in this file. -/

open Sys2Proof Sys2Proof.Machine Sys2Proof.Safety

/-! Encoding (30_encoding.md). -/

/-- R46, R47, R52: no bit of a command is lost between its descriptor and its decoding. -/
def Obligations.EncodedCommandDecodesToItself : Prop :=
  ∀ i : Instr, decode (encode i) = .ok i

/-- R48: which command words select which command, and that every other selects none. -/
def Obligations.DecodeSelectsByThreePatterns : Prop :=
  ∀ d : Descriptor,
    ((∃ dir mode pad ka kl va vl, decode d = .ok (.load dir mode pad ka kl va vl)) ↔
      d.w0 &&& 0xffff80ff = 0x00000001) ∧
    ((∃ ia ic oa, decode d = .ok (.block ia ic oa)) ↔ d.w0 = 0x00000002) ∧
    ((∃ ia ic oa, decode d = .ok (.final ia ic oa)) ↔ d.w0 = 0x00000003) ∧
    ((∃ e, decode d = .error e) ↔
      d.w0 &&& 0xffff80ff ≠ 0x00000001 ∧ d.w0 ≠ 0x00000002 ∧ d.w0 ≠ 0x00000003)

/-- R52, R45, R58: every operand is one whole word, every configuration field a bit slice of W0, and
encoding the decoded command gives the descriptor back, W4 of format T apart, which is ignored and
encoded as 0. -/
def Obligations.OperandsAreWholeWordsAndSlices : Prop :=
  ∀ (d : Descriptor) (i : Instr), decode d = .ok i →
    match i with
    | .load dir mode pad keyAddr keyLen ivAddr ivLen =>
      (dir = .decrypt ↔ d.w0.getLsbD 8 = true) ∧ mode.toNat = d.w0.toNat / 2 ^ 9 % 8 ∧
        pad.toNat = d.w0.toNat / 2 ^ 12 % 8 ∧
        keyAddr = d.w1 ∧ keyLen = d.w2 ∧ ivAddr = d.w3 ∧ ivLen = d.w4 ∧ encode i = d
    | .block inAddr inCount outAddr =>
      inAddr = d.w1 ∧ inCount = d.w2 ∧ outAddr = d.w3 ∧ encode i = { d with w4 := 0 }
    | .final inAddr inCount outAddr =>
      inAddr = d.w1 ∧ inCount = d.w2 ∧ outAddr = d.w3 ∧ encode i = { d with w4 := 0 }

/-- Command words of 95_test_vectors.md V60, and three illegal words of V53. -/
def Obligations.ListedCommandWordsDecode : Prop :=
  decode ⟨0x00000001, 1, 2, 3, 4⟩ = .ok (.load .encrypt 0 0 1 2 3 4) ∧
    decode ⟨0x00001301, 0x1000, 16, 0x1010, 16⟩ = .ok (.load .decrypt 1 1 0x1000 16 0x1010 16) ∧
    decode ⟨0x00003301, 1, 2, 3, 4⟩ = .ok (.load .decrypt 1 3 1 2 3 4) ∧
    decode ⟨0x00001401, 1, 2, 3, 4⟩ = .ok (.load .encrypt 2 1 1 2 3 4) ∧
    decode ⟨0x00005201, 1, 2, 3, 4⟩ = .ok (.load .encrypt 1 5 1 2 3 4) ∧
    decode ⟨0x00000002, 1, 2, 3, 4⟩ = .ok (.block 1 2 3) ∧
    decode ⟨0x00000003, 1, 2, 3, 4⟩ = .ok (.final 1 2 3) ∧
    decode ⟨0x00000004, 1, 2, 3, 4⟩ = .error .unknownOp ∧
    decode ⟨0x00000102, 1, 2, 3, 4⟩ = .error .configurationBits ∧
    decode ⟨0x00008001, 1, 2, 3, 4⟩ = .error .reservedBits

/-! The step (00_scope.md, 10_state.md). -/

/-- R5, R45, R59: a step whose next host event is a command runs the decoded command, with the event
taken off the host's sequence; a conditional command runs only if the last response was OK. The sequence of
events is the model's own (assumptions 1 and 14). -/
def Obligations.StepRunsTheDecodedCommand : Prop :=
  ∀ (s : State) (d : Descriptor) (i : Instr) (rest : List HostEvent), decode d = .ok i →
    (s.host = .command d :: rest → step s = exec i { s with host := rest }) ∧
    (s.host = .commandIfOk d :: rest →
      step s = if s.status = .ok then exec i { s with host := rest }
        else .next { s with host := rest })

/-- R55: an illegal command responds (UsageError, 0) and changes nothing else, in any phase. -/
def Obligations.IllegalCommandOnlyResponds : Prop :=
  ∀ (s : State) (d : Descriptor) (rest : List HostEvent),
    s.host = .command d :: rest → IllegalWord d.w0 →
    step s = .next { s with host := rest, status := .usageError, count := 0 }

/-! Reset (10_state.md R28, 70_reset_and_hazards.md). -/

/-- R28: the codes of the registers after reset. -/
def Obligations.RegistersAfterReset : Prop :=
  phaseCode State.reset.phase = 0 ∧ State.reset.dir.code = 0 ∧ modeCode State.reset.mode = 0 ∧
    paddingCode State.reset.pad = 0 ∧ (∀ r : Fin 32, State.reset.rk[r] = 0) ∧
    (∀ i : Fin 16, State.reset.iv[i] = 0 ∧ State.reset.lb[i] = 0 ∧ State.reset.wb[i] = 0) ∧
    State.reset.hasWb = false ∧ statusCode State.reset.status = 0 ∧ State.reset.count = 0

/-- R150: reset at any time. Cutting a command short leaves at each address the old byte or the one
the completed command would have left. That a command stuck on its range has written nothing is the
model's inference (assumption 8). -/
def Obligations.ResetAtAnyTime : Prop :=
  ∀ (s : State) (rest : List HostEvent),
    (s.host = .reset :: rest →
      ∃ t, step s = .next t ∧ EngineAtReset t ∧ t.mem = s.mem ∧ t.platform = s.platform ∧
        t.host = rest) ∧
    (∀ d, s.host = .resetDuring d :: rest →
      ∃ t, step s = .next t ∧ EngineAtReset t ∧ t.platform = s.platform ∧ t.host = rest ∧
        ∀ a, t.mem.read a = s.mem.read a ∨
          ∃ u, runCommand d { s with host := rest } = .next u ∧ t.mem.read a = u.mem.read a)

/-! LOAD (43_commands.md R111, 60_exceptions.md R131, R135). -/

/-- R111, R135: LOAD with one of the four causes leaves the reset state and STATUS = 1. -/
def Obligations.LoadWithABadConfigurationClearsTheEngine : Prop :=
  ∀ (s : State) (dir : Direction) (mode pad : BitVec 3) (ka kl va vl : Word),
    ConfigurationFault mode pad kl vl →
    exec (.load dir mode pad ka kl va vl) s = .next
      { State.reset with
        status := .configurationError, x := s.x, mem := s.mem, platform := s.platform,
        host := s.host, draws := s.draws }

/-- R131: ConfigurationError comes from LOAD only, and only for its four causes. -/
def Obligations.ConfigurationErrorComesOnlyFromLoad : Prop :=
  ∀ (s t : State) (d : Descriptor), runCommand d s = .next t → t.status = .configurationError →
    ∃ dir mode pad ka kl va vl, decode d = .ok (.load dir mode pad ka kl va vl) ∧
      ConfigurationFault mode pad kl vl

/-- R111: LOAD with a legal configuration and admitted ranges builds the pipeline. In ECB mode the IV
operands are ignored and IV is zero. -/
def Obligations.LoadBuildsThePipeline : Prop :=
  ∀ (s : State) (dir : Direction) (m : Mode) (p : Padding) (ka va vl : Word),
    admits s.platform .read ka.toNat 16 = true →
    (m = .cbc → vl.toNat = 16 ∧ admits s.platform .read va.toNat 16 = true) →
    ∃ t, exec (.load dir (modeCode m) (paddingCode p) ka 16 va vl) s = .next t ∧
      t.phase = .ready ∧ t.dir = dir ∧ t.mode = m ∧ t.pad = p ∧
      t.rk = keySchedule (Vector.ofFn fun i => s.mem.read (ka.toNat + i.1)) dir ∧
      (∀ i : Fin 16, t.iv[i] = if m = .cbc then s.mem.read (va.toNat + i.1) else 0) ∧
      t.lb = t.iv ∧ t.hasWb = false ∧ t.wb = Block.zero ∧ t.status = .ok ∧ t.count = 0 ∧
      t.mem = s.mem ∧ t.platform = s.platform ∧ t.host = s.host

/-! Errors (60_exceptions.md). -/

/-- R136: the two entries of UsageError. -/
def Obligations.UsageErrorEntry : Prop :=
  ∀ (s : State) (ia ic oa : Word),
    (s.phase = .ready → BlockCountFault ic.toNat →
      exec (.block ia ic oa) s = .next
        { s with
          phase := .failed, lb := s.iv, wb := Block.zero, hasWb := false,
          status := .usageError, count := 0 }) ∧
    (s.phase = .ready → FinalCountFault s ic.toNat →
      exec (.final ia ic oa) s = .next
        { s with
          phase := .failed, lb := s.iv, wb := Block.zero, hasWb := false,
          status := .usageError, count := 0 }) ∧
    (s.phase ≠ .ready →
      exec (.block ia ic oa) s = .next { s with status := .usageError, count := 0 } ∧
      exec (.final ia ic oa) s = .next { s with status := .usageError, count := 0 }) ∧
    (∀ d, IllegalWord d.w0 →
      runCommand d s = .next { s with status := .usageError, count := 0 })

/-- R132: UsageError is the response exactly for its causes. -/
def Obligations.UsageErrorExactlyForItsCauses : Prop :=
  ∀ (s t : State) (d : Descriptor), runCommand d s = .next t →
    (t.status = .usageError ↔
      match decode d with
      | .error _ => True
      | .ok (.load _ _ _ _ _ _ _) => False
      | .ok (.block _ ic _) => s.phase ≠ .ready ∨ BlockCountFault ic.toNat
      | .ok (.final _ ic _) => s.phase ≠ .ready ∨ FinalCountFault s ic.toNat)

/-- R133: PaddingValidationError comes only from FINAL on decrypt with padding, when there is no block
or the last block is rejected; Zeros rejects no block. -/
def Obligations.PaddingErrorOnlyForItsCauses : Prop :=
  ∀ (s t : State) (d : Descriptor), runCommand d s = .next t →
    t.status = .paddingValidationError →
    ∃ ia ic oa, decode d = .ok (.final ia ic oa) ∧ s.phase = .ready ∧ s.dir = .decrypt ∧
      s.pad ≠ .none ∧
      ((ic = 0 ∧ s.hasWb = false) ∨
        (s.pad ≠ .zeros ∧ validate s.pad
          (lastBlock (s.withheld ++
            (chain s.pipeline s.lb (s.mem.readBytes ia.toNat ic.toNat)).1)) = none))

/-- R137: what PaddingValidationError leaves, and that what it leaves in the registers does not depend
on the ciphertext (X and the draw counter apart, which no output depends on). -/
def Obligations.PaddingErrorEntry : Prop :=
  ∀ (s t : State) (ia ic oa : Word), exec (.final ia ic oa) s = .next t →
    t.status = .paddingValidationError →
    t.phase = .failed ∧ MessageClosed t ∧ SameConfiguration s t ∧ t.count = 0 ∧ t.mem = s.mem ∧
    ∀ (m : Memory) (u : State) (ia' ic' oa' : Word),
      exec (.final ia' ic' oa') { s with mem := m } = .next u →
      u.status = .paddingValidationError →
      u = { t with mem := m, x := u.x, draws := u.draws }

/-- R105, R113, R137: FINAL on decrypt with padding rejects an empty message and an invalid last
block. R138 puts the admission of the output range first: for a rejected block its length is a free
value, the whole tail less 0 to 16 bytes (assumption 9), so each of those lengths is asked for. -/
def Obligations.FinalRejectsInvalidPadding : Prop :=
  ∀ (s : State) (ia ic oa : Word) (full : List Byte), s.phase = .ready → s.dir = .decrypt →
    s.pad ≠ .none → ¬FinalCountFault s ic.toNat →
    admits s.platform .read ia.toNat ic.toNat = true →
    full = (if s.hasWb = true then s.wb.toList else []) ++
      (chain s.pipeline s.lb (s.mem.readBytes ia.toNat ic.toNat)).1 →
    ((ic = 0 ∧ s.hasWb = false) ∨
      (full ≠ [] ∧ validate s.pad (lastBlock full) = none ∧
        ∀ k, k ≤ 16 → admits s.platform .write oa.toNat (full.length - k) = true)) →
    ∃ t, exec (.final ia ic oa) s = .next t ∧ t.status = .paddingValidationError ∧ t.count = 0 ∧
      t.mem = s.mem

/-- R134: a command that ends in an error writes nothing and reports 0 bytes. -/
def Obligations.ErrorsWriteNothing : Prop :=
  ∀ (s t : State) (d : Descriptor), runCommand d s = .next t → t.status ≠ .ok →
    t.mem = s.mem ∧ t.count = 0

/-- R143: the phase machine, row by row. -/
def Obligations.PhaseMachine : Prop :=
  ∀ (s t : State) (d : Descriptor), runCommand d s = .next t →
    match decode d with
    | .error _ => t.status = .usageError ∧ t.phase = s.phase
    | .ok (.load _ _ _ _ _ _ _) =>
      (t.status = .ok ∧ t.phase = .ready) ∨ (t.status = .configurationError ∧ t.phase = .unbuilt)
    | .ok (.block _ _ _) =>
      if s.phase = .ready then
        (t.status = .ok ∧ t.phase = .ready) ∨ (t.status = .usageError ∧ t.phase = .failed)
      else t.status = .usageError ∧ t.phase = s.phase
    | .ok (.final _ _ _) =>
      if s.phase = .ready then
        (t.status = .ok ∧ t.phase = .ready ∧ t.lb = t.iv ∧ t.hasWb = false) ∨
          (t.status = .usageError ∧ t.phase = .failed) ∨
          (t.status = .paddingValidationError ∧ t.phase = .failed)
      else t.status = .usageError ∧ t.phase = s.phase

/-- R140: FAILED is left only by a LOAD or by reset. -/
def Obligations.FailedIsLeftOnlyByLoadOrReset : Prop :=
  ∀ s t : State, s.phase = .failed → step s = .next t → t.phase ≠ .failed →
    ∃ e rest, s.host = e :: rest ∧
      ((e = .reset ∧ t.phase = .unbuilt) ∨ (∃ d, e = .resetDuring d ∧ t.phase = .unbuilt) ∨
        ∃ d dir mode pad ka kl va vl, (e = .command d ∨ e = .commandIfOk d) ∧
          decode d = .ok (.load dir mode pad ka kl va vl) ∧
          (t.phase = .ready ↔ t.status = .ok) ∧ (t.phase = .unbuilt ↔ t.status ≠ .ok))

/-- R32, R161: a command answers a next state, or is stuck on a range that is not admitted; there is no
other way for it to stop. -/
def Obligations.CommandsStopOnlyOnUnadmittedRanges : Prop :=
  ∀ (s : State) (d : Descriptor),
    Completes (runCommand d s) ∨
    (∃ a n, runCommand d s = .fault (.stuckRead a n) ∧ admits s.platform .read a n = false) ∨
    (∃ a n, runCommand d s = .fault (.stuckWrite a n) ∧ admits s.platform .write a n = false)

/-- R32, R138: where the checks before it pass, an unadmitted range leaves the command stuck, for
every command, every range it names and every form. Where the padding is rejected too, the length of
the output range is a free value (assumption 9); the command is stuck, and not in error, if no length
it may have is admitted. -/
def Obligations.UnadmittedRangesAreStuck : Prop :=
  ∀ (s : State) (ia ic oa : Word) (dir : Direction) (mode pad : BitVec 3) (va vl : Word)
    (full : List Byte),
    full = (if s.hasWb = true then s.wb.toList else []) ++
      (chain s.pipeline s.lb (s.mem.readBytes ia.toNat ic.toNat)).1 →
    (¬ConfigurationFault mode pad 16 vl → admits s.platform .read ia.toNat 16 = false →
      exec (.load dir mode pad ia 16 va vl) s = .fault (.stuckRead ia.toNat 16)) ∧
    (¬ConfigurationFault 1 pad 16 16 → admits s.platform .read ia.toNat 16 = true →
      admits s.platform .read va.toNat 16 = false →
      exec (.load dir 1 pad ia 16 va 16) s = .fault (.stuckRead va.toNat 16)) ∧
    (s.phase = .ready → ¬BlockCountFault ic.toNat →
      (admits s.platform .read ia.toNat ic.toNat = false →
        exec (.block ia ic oa) s = .fault (.stuckRead ia.toNat ic.toNat)) ∧
      (admits s.platform .read ia.toNat ic.toNat = true →
        (s.dir = .encrypt ∨ s.pad = .none →
          admits s.platform .write oa.toNat ic.toNat = false →
          exec (.block ia ic oa) s = .fault (.stuckWrite oa.toNat ic.toNat)) ∧
        (s.dir = .decrypt → s.pad ≠ .none → ic ≠ 0 →
          admits s.platform .write oa.toNat (full.length - 16) = false →
          exec (.block ia ic oa) s = .fault (.stuckWrite oa.toNat (full.length - 16))))) ∧
    (s.phase = .ready → ¬FinalCountFault s ic.toNat →
      (admits s.platform .read ia.toNat ic.toNat = false →
        exec (.final ia ic oa) s = .fault (.stuckRead ia.toNat ic.toNat)) ∧
      (admits s.platform .read ia.toNat ic.toNat = true →
        (s.pad = .none → admits s.platform .write oa.toNat ic.toNat = false →
          exec (.final ia ic oa) s = .fault (.stuckWrite oa.toNat ic.toNat)) ∧
        (s.dir = .encrypt → s.pad ≠ .none →
          admits s.platform .write oa.toNat (ic.toNat + padLen ic.toNat) = false →
          exec (.final ia ic oa) s = .fault (.stuckWrite oa.toNat (ic.toNat + padLen ic.toNat))) ∧
        (s.dir = .decrypt → s.pad ≠ .none → full ≠ [] →
          (∀ strip, validate s.pad (lastBlock full) = some strip →
            admits s.platform .write oa.toNat (full.length - strip) = false →
            exec (.final ia ic oa) s = .fault (.stuckWrite oa.toNat (full.length - strip))) ∧
          (validate s.pad (lastBlock full) = none →
            (∀ k, k ≤ 16 → admits s.platform .write oa.toNat (full.length - k) = false) →
            ∃ k, k ≤ 16 ∧
              exec (.final ia ic oa) s = .fault (.stuckWrite oa.toNat (full.length - k))))))

/-! BLOCK (43_commands.md R112, 42_padding.md R96, R98). -/

/-- R112, R96, R36: BLOCK on encrypt, or without padding, writes Chain of its input, as the input was
before the command. Where output overlaps input forward this is the spec's decision (assumption 10). -/
def Obligations.BlockMovesWholeBlocks : Prop :=
  ∀ (s : State) (ia ic oa : Word), s.phase = .ready → ¬BlockCountFault ic.toNat →
    (s.dir = .encrypt ∨ s.pad = .none) →
    admits s.platform .read ia.toNat ic.toNat = true →
    admits s.platform .write oa.toNat ic.toNat = true →
    ∃ t, exec (.block ia ic oa) s = .next t ∧
      Stored s.mem oa.toNat (chain s.pipeline s.lb (s.mem.readBytes ia.toNat ic.toNat)).1 t.mem ∧
      t.lb = (chain s.pipeline s.lb (s.mem.readBytes ia.toNat ic.toNat)).2 ∧
      t.status = .ok ∧ t.count = ic ∧ t.phase = .ready ∧ t.hasWb = s.hasWb ∧ t.wb = s.wb ∧
      SameConfiguration s t

/-- R98, R112: BLOCK on decrypt with padding puts the withheld block before its output and holds the
new trailing block back. -/
def Obligations.BlockWithholdsOneBlockOnDecrypt : Prop :=
  ∀ (s : State) (ia ic oa : Word) (full : List Byte), s.phase = .ready →
    ¬BlockCountFault ic.toNat → ic ≠ 0 → s.dir = .decrypt → s.pad ≠ .none →
    admits s.platform .read ia.toNat ic.toNat = true →
    full = (if s.hasWb = true then s.wb.toList else []) ++
      (chain s.pipeline s.lb (s.mem.readBytes ia.toNat ic.toNat)).1 →
    admits s.platform .write oa.toNat (full.length - 16) = true →
    ∃ t, exec (.block ia ic oa) s = .next t ∧
      Stored s.mem oa.toNat (full.take (full.length - 16)) t.mem ∧
      t.wb.toList = full.drop (full.length - 16) ∧ t.hasWb = true ∧
      t.lb = (chain s.pipeline s.lb (s.mem.readBytes ia.toNat ic.toNat)).2 ∧
      t.status = .ok ∧
      t.count.toNat = (if s.hasWb = true then ic.toNat else ic.toNat - 16) ∧
      t.phase = .ready ∧ SameConfiguration s t

/-- R112 corner case (a), R98: BLOCK of nothing changes nothing but the response, in every READY
configuration. -/
def Obligations.BlockOfNothingChangesNothing : Prop :=
  ∀ (s : State) (ia oa : Word), s.phase = .ready →
    exec (.block ia 0 oa) s = .next { s with status := .ok, count := 0 }

/-! FINAL (43_commands.md R113, 42_padding.md R97, R99). -/

/-- R97, R113: FINAL on encrypt with padding writes Chain of the padded input and closes the message. -/
def Obligations.FinalEncryptsThePaddedRest : Prop :=
  ∀ (s : State) (ia ic oa : Word), s.phase = .ready → s.dir = .encrypt → s.pad ≠ .none →
    ic.toNat ≤ 2 ^ 32 - 17 → admits s.platform .read ia.toNat ic.toNat = true →
    admits s.platform .write oa.toNat (ic.toNat + padLen ic.toNat) = true →
    ∃ t, exec (.final ia ic oa) s = .next t ∧
      Stored s.mem oa.toNat (chain s.pipeline s.lb (s.mem.readBytes ia.toNat ic.toNat ++
        padBytes s.pad (padLen ic.toNat) (isoDraw s.draws))).1 t.mem ∧
      t.status = .ok ∧ t.count.toNat = ic.toNat + padLen ic.toNat ∧ t.phase = .ready ∧
      MessageClosed t ∧ SameConfiguration s t

/-- R113: FINAL without padding, in either direction, writes Chain of its input and closes the
message. -/
def Obligations.FinalWithoutPadding : Prop :=
  ∀ (s : State) (ia ic oa : Word), s.phase = .ready → s.pad = .none →
    ¬FinalCountFault s ic.toNat → admits s.platform .read ia.toNat ic.toNat = true →
    admits s.platform .write oa.toNat ic.toNat = true →
    ∃ t, exec (.final ia ic oa) s = .next t ∧
      Stored s.mem oa.toNat (chain s.pipeline s.lb (s.mem.readBytes ia.toNat ic.toNat)).1 t.mem ∧
      t.status = .ok ∧ t.count = ic ∧ t.phase = .ready ∧ MessageClosed t ∧ SameConfiguration s t

/-- R99, R113: FINAL on decrypt with padding writes the withheld block and the rest, less the pad that
the last block names, and closes the message. -/
def Obligations.FinalDecryptsAndStrips : Prop :=
  ∀ (s : State) (ia ic oa : Word) (full : List Byte) (strip : Nat), s.phase = .ready →
    s.dir = .decrypt → s.pad ≠ .none → ¬FinalCountFault s ic.toNat →
    admits s.platform .read ia.toNat ic.toNat = true →
    full = (if s.hasWb = true then s.wb.toList else []) ++
      (chain s.pipeline s.lb (s.mem.readBytes ia.toNat ic.toNat)).1 →
    full ≠ [] → validate s.pad (lastBlock full) = some strip →
    admits s.platform .write oa.toNat (full.length - strip) = true →
    ∃ t, exec (.final ia ic oa) s = .next t ∧
      Stored s.mem oa.toNat (full.take (full.length - strip)) t.mem ∧
      t.status = .ok ∧
      t.count.toNat = ic.toNat + (if s.hasWb = true then 16 else 0) - strip ∧
      t.phase = .ready ∧ MessageClosed t ∧ SameConfiguration s t

/-- What each command leaves unchanged (R13 to R15, R18, R20, R37, R54), and how far COUNT can go
(R38). LOAD stores nothing. BLOCK and FINAL leave the configuration, the round keys, IV, the platform
and the host's sequence, and store only to `out_addr .. +COUNT`. -/
def Obligations.CommandFrames : Prop :=
  (∀ (s t : State) (dir : Direction) (mode pad : BitVec 3) (ka kl va vl : Word),
    exec (.load dir mode pad ka kl va vl) s = .next t →
    t.mem = s.mem ∧ t.platform = s.platform ∧ t.host = s.host ∧ t.count = 0) ∧
  ∀ (s t : State) (ia ic oa : Word) (i : Instr), i = .block ia ic oa ∨ i = .final ia ic oa →
    exec i s = .next t →
    SameConfiguration s t ∧ t.count.toNat ≤ outputCapacity i ∧
      ∀ a, ¬InRange oa.toNat t.count.toNat a → t.mem.read a = s.mem.read a

/-- R25 (h), R117: after a successful FINAL the engine is in the state a successful LOAD of the same
configuration leaves (the response's COUNT and the scratch registers X apart). -/
def Obligations.FinalLeavesTheLoadedState : Prop :=
  ∀ (s₀ s₁ s t : State) (dir : Direction) (mode pad : BitVec 3) (ka kl va vl ia ic oa : Word),
    exec (.load dir mode pad ka kl va vl) s₀ = .next s₁ → s₁.status = .ok →
    exec (.final ia ic oa) s = .next t → t.status = .ok →
    s.dir = s₁.dir ∧ s.mode = s₁.mode ∧ s.pad = s₁.pad ∧ s.rk = s₁.rk ∧ s.iv = s₁.iv →
    t = { s₁ with
      count := t.count, x := t.x, mem := t.mem, platform := t.platform, host := t.host,
      draws := t.draws }

/-! The SM4 core (40_sm4_core.md). -/

/-- R60, R61, R62: the S-box is a permutation with the entries R60 names, FK is as R61 gives it, and
byte j of CK[i] is ((4i + j) · 7) mod 256. The spec marks the values as from general knowledge
(assumption 17). -/
def Obligations.ConstantTables : Prop :=
  Function.Bijective sbox ∧
    (sbox 0x00 = 0xd6 ∧ sbox 0x01 = 0x90 ∧ sbox 0x10 = 0x2b ∧ sbox 0xef = 0x84 ∧
      sbox 0xff = 0x48) ∧
    (fk[0] = 0xa3b1bac6 ∧ fk[1] = 0x56aa3350 ∧ fk[2] = 0x677d9197 ∧ fk[3] = 0xb27022dc) ∧
    ck.length = 32 ∧
    ∀ (i : Fin 32) (j : Fin 4),
      (byteOf (ck.getD i.1 0) j.1).toNat = (4 * i.1 + j.1) * 7 % 256

/-- R64: `tau` puts each byte through the S-box in its own lane, and is a bijection. -/
def Obligations.TauIsABijectionByLanes : Prop :=
  (∀ x : Word, (tau x).toNat =
    (sbox (BitVec.ofNat 8 (x.toNat / 2 ^ 24))).toNat * 2 ^ 24 +
      (sbox (BitVec.ofNat 8 (x.toNat / 2 ^ 16))).toNat * 2 ^ 16 +
      (sbox (BitVec.ofNat 8 (x.toNat / 2 ^ 8))).toNat * 2 ^ 8 +
      (sbox (BitVec.ofNat 8 x.toNat)).toNat) ∧
    Function.Bijective tau

/-- R8, R65, R66: the rotation by its formula, and the linear maps by their formulas, fixed points and
linearity. -/
def Obligations.RotationAndLinearMaps : Prop :=
  (∀ (w : Word) (n : Nat), 0 < n → n < 32 →
    (rotl w n).toNat = (w.toNat * 2 ^ n + w.toNat / 2 ^ (32 - n)) % 2 ^ 32) ∧
  (∀ b : Word, mapL b = b ^^^ rotl b 2 ^^^ rotl b 10 ^^^ rotl b 18 ^^^ rotl b 24) ∧
    (∀ b : Word, mapLp b = b ^^^ rotl b 13 ^^^ rotl b 23) ∧
    (∀ a b : Word, mapL (a ^^^ b) = mapL a ^^^ mapL b ∧ mapLp (a ^^^ b) = mapLp a ^^^ mapLp b) ∧
    (mapL 0 = 0 ∧ mapL 0xffffffff = 0xffffffff ∧ mapLp 0 = 0 ∧ mapLp 0xffffffff = 0xffffffff) ∧
    (mapL 0x12345678 = 0xaa4e9357 ∧ mapLp 0x12345678 = 0xa4f24e15)

/-- R69: the forward schedule is the recurrence over the 36 words K. -/
def Obligations.KeyExpandFollowsTheRecurrence : Prop :=
  ∀ key : Block, ∃ K : Nat → Word,
    (∀ j : Fin 4, K j.1 = wordOf key j ^^^ fk[j]) ∧
    ∀ i : Fin 32,
      K (i.1 + 4) =
        K i.1 ^^^ mapTp (K (i.1 + 1) ^^^ K (i.1 + 2) ^^^ K (i.1 + 3) ^^^ ck.getD i.1 0) ∧
      (keyExpand key)[i] = K (i.1 + 4)

/-- R70: use order is forward for encryption and reversed for decryption. -/
def Obligations.KeyScheduleOrder : Prop :=
  ∀ (key : Block) (r : Fin 32),
    (keySchedule key .encrypt)[r] = (keyExpand key)[r] ∧
      (keySchedule key .decrypt)[r] = (keyExpand key)[31 - r.1]

/-- R71: the block transform is the 32 rounds over the 36 words X, the last four output in reverse
order as big-endian bytes. -/
def Obligations.BlockTransformFollowsTheRounds : Prop :=
  ∀ (rk : RoundKeys) (b : Block), ∃ X : Nat → Word,
    (∀ j : Fin 4, X j.1 = wordOf b j) ∧
    (∀ r : Fin 32,
      X (r.1 + 4) = X r.1 ^^^ mapT (X (r.1 + 1) ^^^ X (r.1 + 2) ^^^ X (r.1 + 3) ^^^ rk[r])) ∧
    ∀ j : Fin 4, wordOf (blockTransform rk b) j = X (35 - j.1)

/-- R72: the in-place form on the four working registers computes the same result. -/
def Obligations.InPlaceTransformAgrees : Prop :=
  ∀ (rk : RoundKeys) (b : Block), blockTransformInPlace rk b = blockTransform rk b

/-- R71: for fixed round keys the block transform is a bijection on blocks. -/
def Obligations.BlockTransformIsABijection : Prop :=
  ∀ rk : RoundKeys, Function.Bijective (blockTransform rk)

/-- R73: one function serves both directions; the mirrored schedule recovers the original. -/
def Obligations.MirroredScheduleRecoversTheBlock : Prop :=
  ∀ (key b : Block),
    blockTransform (keySchedule key .decrypt) (blockTransform (keySchedule key .encrypt) b) = b ∧
      blockTransform (keySchedule key .encrypt) (blockTransform (keySchedule key .decrypt) b) = b

/-- The known answer (40_sm4_core.md R71, 95_test_vectors.md V1). -/
def Obligations.KnownAnswer : Prop :=
  blockTransform (keySchedule (blockOfWords 0x01234567 0x89abcdef 0xfedcba98 0x76543210) .encrypt)
      (blockOfWords 0x01234567 0x89abcdef 0xfedcba98 0x76543210) =
    blockOfWords 0x681edf34 0xd206965e 0x86b3e94f 0x536e4246

/-! The mode layer (41_cbc.md). -/

/-- R81, R82, R83: one block through the mode layer. -/
def Obligations.ChainBlockByMode : Prop :=
  ∀ (rk : RoundKeys) (lb b : Block),
    (∀ dir, chainBlock ⟨.ecb, dir, rk⟩ lb b = (blockTransform rk b, lb)) ∧
    (chainBlock ⟨.cbc, .encrypt, rk⟩ lb b).1 =
      blockTransform rk (Vector.ofFn fun i => b[i] ^^^ lb[i]) ∧
    (chainBlock ⟨.cbc, .encrypt, rk⟩ lb b).2 = (chainBlock ⟨.cbc, .encrypt, rk⟩ lb b).1 ∧
    (∀ i : Fin 16, (chainBlock ⟨.cbc, .decrypt, rk⟩ lb b).1[i] = (blockTransform rk b)[i] ^^^ lb[i]) ∧
    (chainBlock ⟨.cbc, .decrypt, rk⟩ lb b).2 = b

/-- R84: Chain on whole blocks, block by block, its length, the empty string, and cutting a message at
a block boundary. -/
def Obligations.ChainSplitsAtBlockBoundaries : Prop :=
  ∀ (p : Pipeline) (lb : Block),
    chain p lb [] = ([], lb) ∧
    (∀ (b : Block) (m : List Byte), m.length % 16 = 0 →
      chain p lb (b.toList ++ m) =
        ((chainBlock p lb b).1.toList ++ (chain p (chainBlock p lb b).2 m).1,
          (chain p (chainBlock p lb b).2 m).2)) ∧
    (∀ m : List Byte, m.length % 16 = 0 → (chain p lb m).1.length = m.length) ∧
    ∀ m₁ m₂ : List Byte, m₁.length % 16 = 0 → m₂.length % 16 = 0 →
      chain p lb (m₁ ++ m₂) =
        ((chain p lb m₁).1 ++ (chain p (chain p lb m₁).2 m₂).1, (chain p (chain p lb m₁).2 m₂).2)

/-- R87 (b): decrypting what was encrypted from the same IV returns it, in both modes. -/
def Obligations.ChainDecryptionInvertsEncryption : Prop :=
  ∀ (mode : Mode) (key iv : Block) (m : List Byte), m.length % 16 = 0 →
    (chain ⟨mode, .decrypt, keySchedule key .decrypt⟩ iv
      (chain ⟨mode, .encrypt, keySchedule key .encrypt⟩ iv m).1).1 = m

/-- R87 (a): two equal plaintext blocks show as equal ciphertext blocks under ECB, and under CBC only
if the first ciphertext block is the IV. -/
def Obligations.EqualBlocksShowUnderEcbOnly : Prop :=
  ∀ (rk : RoundKeys) (iv b : Block),
    (∃ c, (chainBlocks ⟨.ecb, .encrypt, rk⟩ iv [b, b]).1 = [c, c]) ∧
    ∃ c₁ c₂, (chainBlocks ⟨.cbc, .encrypt, rk⟩ iv [b, b]).1 = [c₁, c₂] ∧ (c₁ = c₂ ↔ c₁ = iv)

/-- R87 (c): under CBC decryption a change of ciphertext block i changes plaintext block i, changes
plaintext block i+1 in exactly the changed bits, and changes no other block. -/
def Obligations.CbcErrorPropagation : Prop :=
  ∀ (rk : RoundKeys) (iv c : Block) (cs : List Block) (i : Nat) (h : i < cs.length), c ≠ cs[i] →
    let ps := (chainBlocks ⟨.cbc, .decrypt, rk⟩ iv cs).1
    let qs := (chainBlocks ⟨.cbc, .decrypt, rk⟩ iv (cs.set i c)).1
    qs[i]? ≠ ps[i]? ∧
      qs[i + 1]? = (ps[i + 1]?).map (fun p => xorBlocks p (xorBlocks cs[i] c)) ∧
      ∀ j, j ≠ i → j ≠ i + 1 → qs[j]? = ps[j]?

/-! The padding layer (42_padding.md). -/

/-- R91: PadLen. -/
def Obligations.PadLenIsOneToSixteen : Prop :=
  (∀ n, padLen n + n % 16 = 16 ∧ 1 ≤ padLen n ∧ padLen n ≤ 16 ∧ (n + padLen n) % 16 = 0) ∧
    padLen 0 = 16 ∧ padLen 3 = 13 ∧ padLen 15 = 1 ∧ padLen 16 = 16 ∧ padLen 17 = 15

/-- R92 to R95: the pad bytes of each scheme, by index, for any draw of 15 bytes. -/
def Obligations.PadBytesByScheme : Prop :=
  ∀ (k : Nat) (draw : List Byte), 1 ≤ k → k ≤ 16 → draw.length = 15 →
    ((padBytes .pkcs7 k draw).length = k ∧
      ∀ i, i < k → (padBytes .pkcs7 k draw)[i]? = some (BitVec.ofNat 8 k)) ∧
    ((padBytes .ansix923 k draw).length = k ∧
      ∀ i, i < k → (padBytes .ansix923 k draw)[i]? =
        some (if i = k - 1 then BitVec.ofNat 8 k else 0)) ∧
    ((padBytes .iso10126 k draw).length = k ∧
      ∀ i, i < k → (padBytes .iso10126 k draw)[i]? =
        if i = k - 1 then some (BitVec.ofNat 8 k) else draw[i]?) ∧
    ((padBytes .zeros k draw).length = k ∧
      ∀ i, i < k → (padBytes .zeros k draw)[i]? = some 0)

/-- R100, R101, R102: when validation accepts in the PKCS7 family, and what it strips. -/
def Obligations.ValidateThePkcs7Family : Prop :=
  ∀ (last : Block) (k : Nat),
    (validate .pkcs7 last = some k ↔
      last[15].toNat = k ∧ 1 ≤ k ∧ k ≤ 16 ∧ ∀ i : Fin 16, 16 - k ≤ i.1 → last[i].toNat = k) ∧
    (validate .ansix923 last = some k ↔
      last[15].toNat = k ∧ 1 ≤ k ∧ k ≤ 16 ∧
        ∀ i : Fin 16, 16 - k ≤ i.1 → i.1 ≠ 15 → last[i] = 0) ∧
    (validate .iso10126 last = some k ↔ last[15].toNat = k ∧ 1 ≤ k ∧ k ≤ 16)

/-- R103: Zeros validation never fails and counts the zero bytes at the end of the block. -/
def Obligations.ValidateZeros : Prop :=
  ∀ last : Block, ∃ k, validate .zeros last = some k ∧ k ≤ 16 ∧
    (∀ i : Fin 16, 16 - k ≤ i.1 → last[i] = 0) ∧
    ∀ i : Fin 16, i.1 + 1 = 16 - k → last[i] ≠ 0

/-- R92 to R94, R100 to R102: a pad the encoder makes is accepted and stripped whole. -/
def Obligations.EncodedPadIsAccepted : Prop :=
  ∀ (pad : Padding) (m draw : List Byte), pad = .pkcs7 ∨ pad = .ansix923 ∨ pad = .iso10126 →
    draw.length = 15 →
    validate pad (lastBlock (padded pad m draw)) = some (padLen m.length) ∧
      (padded pad m draw).take ((padded pad m draw).length - padLen m.length) = m

/-- R108: under Zeros the message comes back exactly when its length is a multiple of 16 or its last
byte is not zero. -/
def Obligations.ZerosRoundTripExactly : Prop :=
  ∀ m draw : List Byte, ∃ strip,
    validate .zeros (lastBlock (padded .zeros m draw)) = some strip ∧
      ((padded .zeros m draw).take ((padded .zeros m draw).length - strip) = m ↔
        m.length % 16 = 0 ∨ m.getLast? ≠ some 0)

/-! The whole machine. -/

/-- R114: cutting a message into BLOCK and FINAL commands gives the bytes of one FINAL, for equal
ISO10126 draws; and two BLOCK commands give the bytes of one, and leave LB, WB and HAS_WB the same. -/
def Obligations.StreamingEquivalence : Prop :=
  ∀ (s : State) (m₁ m₂ : List Byte), m₁.length % 16 = 0 →
    ((s.dir = .decrypt ∨ s.pad = .none → m₂.length % 16 = 0) →
      (s.dir = .encrypt → s.pad = .iso10126 →
        isoDraw (blockOutput m₁ s).2.draws = isoDraw s.draws) →
      (finalOutput m₂ (blockOutput m₁ s).2).1.map ((blockOutput m₁ s).1 ++ ·) =
        (finalOutput (m₁ ++ m₂) s).1) ∧
    (m₂.length % 16 = 0 →
      (blockOutput m₁ s).1 ++ (blockOutput m₂ (blockOutput m₁ s).2).1 =
          (blockOutput (m₁ ++ m₂) s).1 ∧
        (blockOutput m₂ (blockOutput m₁ s).2).2.lb = (blockOutput (m₁ ++ m₂) s).2.lb ∧
        (blockOutput m₂ (blockOutput m₁ s).2).2.wb = (blockOutput (m₁ ++ m₂) s).2.wb ∧
        (blockOutput m₂ (blockOutput m₁ s).2).2.hasWb = (blockOutput (m₁ ++ m₂) s).2.hasWb)

/-- R59: ENCRYPT and DECRYPT, with any codes of mode and padding, are a LOAD and then a FINAL that is
issued only if the LOAD responds OK. The events they expand to are the model's own (assumptions 1 and
14). -/
def Obligations.OneShotIssuesFinalOnlyAfterOk : Prop :=
  ∀ (s t : State) (dir : Direction) (mode pad : BitVec 3) (k kl v vl a n o : Word)
    (rest : List HostEvent),
    s.host = oneShot dir mode pad k kl v vl a n o ++ rest →
    exec (.load dir mode pad k kl v vl)
      { s with host := .commandIfOk (encode (.final a n o)) :: rest } = .next t →
    Host.Core.run Sys2Proof.core 2 s =
      if t.status = .ok then exec (.final a n o) { t with host := rest }
      else .next { t with host := rest }

/-- R115, R108: ENCRYPT then DECRYPT of its ciphertext gives the message back, from any state, in both
modes, for the PKCS7 family, for Zeros where R108 says so, and without padding on whole blocks;
wherever the ranges are admitted, the ciphertext does not overwrite key or IV, and its length is one
that DECRYPT accepts (assumption 12). Without padding ENCRYPT of any other length is a UsageError. The
events are the model's own (assumptions 1 and 14). -/
def Obligations.EncryptThenDecryptReturnsTheMessage : Prop :=
  ∀ (s : State) (mode : Mode) (pad : Padding) (k v a n o p : Word) (rest : List HostEvent) (c : Nat),
    c = ciphertextLength pad n.toNat →
    admits s.platform .read k.toNat 16 = true →
    (mode = .cbc → admits s.platform .read v.toNat 16 = true) →
    (ComesBack pad (s.mem.readBytes a.toNat n.toNat) → c ≤ 2 ^ 32 - 17 →
      admits s.platform .read a.toNat n.toNat = true →
      admits s.platform .write o.toNat c = true →
      admits s.platform .read o.toNat c = true →
      admits s.platform .write p.toNat n.toNat = true →
      (∀ x, InRange o.toNat c x → ¬InRange k.toNat 16 x ∧ (mode = .cbc → ¬InRange v.toNat 16 x)) →
      s.host = oneShot .encrypt (modeCode mode) (paddingCode pad) k 16 v 16 a n o ++
        (oneShot .decrypt (modeCode mode) (paddingCode pad) k 16 v 16 o (BitVec.ofNat 32 c) p ++
          rest) →
      ∃ u t, Host.Core.run Sys2Proof.core 2 s = .next u ∧ u.status = .ok ∧ u.count.toNat = c ∧
        Host.Core.run Sys2Proof.core 2 u = .next t ∧ t.status = .ok ∧ t.count = n ∧ t.host = rest ∧
        ∀ i, i < n.toNat → t.mem.read (p.toNat + i) = s.mem.read (a.toNat + i)) ∧
    (pad = .none → n.toNat % 16 ≠ 0 →
      s.host = oneShot .encrypt (modeCode mode) (paddingCode pad) k 16 v 16 a n o ++ rest →
      ∃ t, Host.Core.run Sys2Proof.core 2 s = .next t ∧ t.status = .usageError ∧ t.count = 0 ∧
        t.host = rest ∧ t.mem = s.mem)

/-- The invariants hold at reset. What reset memory lists is the model's choice (assumption 2). -/
def Obligations.InvariantsHoldAtReset : Prop := Inv State.reset ∧ MemoryInv State.reset

/-- R25 (a) to (g), R54: every step keeps the invariants of the registers. -/
def Obligations.StepKeepsTheRegisterInvariants : Prop :=
  ∀ s t : State, Inv s → step s = .next t → Inv t

/-- Every step keeps memory in canonical form and inside the address space. -/
def Obligations.StepKeepsMemoryCanonical : Prop :=
  ∀ s t : State, MemoryInv s → step s = .next t → MemoryInv t

/-- Memories in canonical form that read the same everywhere are equal. -/
def Obligations.CanonicalMemoryIsItsBytes : Prop :=
  ∀ m m' : Memory, m.wf = true → m'.wf = true → (∀ a, m.read a = m'.read a) → m = m'

/-- R31: what MemRead and MemWrite do, byte by byte. -/
def Obligations.MemReadAndMemWriteByByte : Prop :=
  ∀ (m : Memory) (addr n : Nat) (v : List Byte),
    (m.readBytes addr n).length = n ∧
      (∀ i, i < n → (m.readBytes addr n)[i]? = some (m.read (addr + i))) ∧
      Stored m addr v (m.writeBytes addr v)

/-- R24: nothing depends on what X holds between commands. -/
def Obligations.ScratchIsNeverObserved : Prop :=
  ∀ (s t : State) (v : Vector Word 4), step s = .next t →
    ∃ w, step { s with x := v } = .next { t with x := w }

/-- R39: after LOAD the key and IV buffers are not read again: BLOCK and FINAL depend on memory only
through their input range. -/
def Obligations.OnlyTheInputRangeIsRead : Prop :=
  ∀ (s t : State) (m : Memory) (ia ic oa : Word) (i : Instr),
    i = .block ia ic oa ∨ i = .final ia ic oa →
    (∀ a, InRange ia.toNat ic.toNat a → m.read a = s.mem.read a) → exec i s = .next t →
    ∃ u, exec i { s with mem := m } = .next u ∧ u = { t with mem := u.mem } ∧
      ∀ a, InRange oa.toNat t.count.toNat a → u.mem.read a = t.mem.read a
end

