-- ==== Sys2Proof/Laws/Blocks.lean ====
section
/-! SUPPORT. The laws of blocks and byte strings: cutting a string into blocks and joining it again,
the words of a block, exclusive-or, and the lengths the mode layer keeps. -/

namespace Sys2Proof.Machine

theorem toList_blockOfBytes {bs : List Byte} (h : bs.length = 16) :
    (blockOfBytes bs).toList = bs := by
  apply List.ext_getElem
  · simp [h]
  · intro i h1 h2
    simp [blockOfBytes, h2]

theorem blockOfBytes_toList (b : Block) : blockOfBytes b.toList = b := by
  apply Vector.ext
  intro i hi
  simp [blockOfBytes]

theorem toList_injective {a b : Block} (h : a.toList = b.toList) : a = b := by
  rw [← blockOfBytes_toList a, ← blockOfBytes_toList b, h]

@[simp] theorem bytesOf_nil : bytesOf [] = [] := rfl

@[simp] theorem bytesOf_cons (b : Block) (bs : List Block) :
    bytesOf (b :: bs) = b.toList ++ bytesOf bs := rfl

theorem bytesOf_append (as bs : List Block) : bytesOf (as ++ bs) = bytesOf as ++ bytesOf bs := by
  induction as with
  | nil => rfl
  | cons a as ih => simp [ih]

@[simp] theorem length_bytesOf (bs : List Block) : (bytesOf bs).length = 16 * bs.length := by
  induction bs with
  | nil => rfl
  | cons b bs ih => simp [ih]; omega

@[simp] theorem length_blocksOf (q : Nat) : ∀ bs, (blocksOf q bs).length = q := by
  induction q with
  | zero => intro bs; rfl
  | succ q ih => intro bs; simp [blocksOf, ih]

/-- Cutting whole blocks and joining them gives the string back. -/
theorem bytesOf_blocksOf (q : Nat) : ∀ {bs : List Byte}, bs.length = 16 * q →
    bytesOf (blocksOf q bs) = bs := by
  induction q with
  | zero => intro bs h; simpa [blocksOf] using (List.length_eq_zero_iff.mp (by simpa using h)).symm
  | succ q ih =>
    intro bs h
    rw [blocksOf, bytesOf_cons, ih (by simp; omega), toList_blockOfBytes (by simp; omega),
      List.take_append_drop]

/-- Joining blocks and cutting gives the blocks back. -/
theorem blocksOf_bytesOf (bs : List Block) : blocksOf bs.length (bytesOf bs) = bs := by
  induction bs with
  | nil => rfl
  | cons b bs ih =>
    rw [List.length_cons, blocksOf, bytesOf_cons, List.take_append_of_le_length (by simp),
      List.drop_append_of_le_length (by simp)]
    have ht : b.toList.take 16 = b.toList := List.take_of_length_le (by simp)
    have hd : b.toList.drop 16 = [] := List.drop_of_length_le (by simp)
    rw [ht, hd, blockOfBytes_toList, List.nil_append, ih]

/-- Cutting a string at a block boundary. -/
theorem blocksOf_append (q r : Nat) : ∀ {as bs : List Byte}, as.length = 16 * q →
    blocksOf (q + r) (as ++ bs) = blocksOf q as ++ blocksOf r bs := by
  induction q with
  | zero =>
    intro as bs h
    have : as = [] := List.length_eq_zero_iff.mp (by simpa using h)
    subst this; simp [blocksOf]
  | succ q ih =>
    intro as bs h
    rw [Nat.succ_add, blocksOf, blocksOf, List.take_append_of_le_length (by omega),
      List.drop_append_of_le_length (by omega), ih (by simp; omega)]
    rfl

/-! Words of a block. -/

theorem be32_bytes (w : Word) : be32 (byteOf w 0) (byteOf w 1) (byteOf w 2) (byteOf w 3) = w := by
  apply BitVec.eq_of_getLsbD_eq
  intro i hi
  simp only [be32, byteOf, BitVec.getLsbD_append, BitVec.getLsbD_extractLsb']
  split
  · next h => simp [h]
  · split
    · next h => simp [h]; congr 1; omega
    · split
      · next h => simp [h]; congr 1; omega
      · next h => simp [show i - 8 - 8 - 8 < 8 by omega]; congr 1; omega

/-- Byte `k` of a word, bit by bit. -/
theorem getLsbD_byteOf (w : Word) {k : Nat} (i : Nat) :
    (byteOf w k).getLsbD i = (decide (i < 8) && w.getLsbD (8 * (3 - k) + i)) := by
  simp [byteOf]

theorem byteOf_be32 (a b c d : Byte) :
    byteOf (be32 a b c d) 0 = a ∧ byteOf (be32 a b c d) 1 = b ∧
      byteOf (be32 a b c d) 2 = c ∧ byteOf (be32 a b c d) 3 = d := by
  refine ⟨?_, ?_, ?_, ?_⟩ <;> apply BitVec.eq_of_getLsbD_eq <;> intro i hi <;>
    simp only [getLsbD_byteOf, be32, BitVec.getLsbD_append, hi, decide_true, Bool.true_and] <;>
    norm_num
  · rw [if_neg (by omega), if_neg (by omega), if_neg (by omega)]; congr 1; omega
  · rw [if_neg (by omega), if_neg (by omega), if_pos (by omega)]; congr 1; omega
  · intro h; omega
  · intro h; omega

/-- The words of the block made of four words. -/
theorem wordOf_blockOfWords (w0 w1 w2 w3 : Word) :
    wordOf (blockOfWords w0 w1 w2 w3) 0 = w0 ∧ wordOf (blockOfWords w0 w1 w2 w3) 1 = w1 ∧
      wordOf (blockOfWords w0 w1 w2 w3) 2 = w2 ∧ wordOf (blockOfWords w0 w1 w2 w3) 3 = w3 :=
  ⟨be32_bytes w0, be32_bytes w1, be32_bytes w2, be32_bytes w3⟩

/-- A block is the block of its words. -/
theorem blockOfWords_wordOf (b : Block) :
    blockOfWords (wordOf b 0) (wordOf b 1) (wordOf b 2) (wordOf b 3) = b := by
  apply Vector.ext
  intro i hi
  have h := fun j : Fin 4 => byteOf_be32 b[4 * j.1] b[4 * j.1 + 1] b[4 * j.1 + 2] b[4 * j.1 + 3]
  have h0 := h 0
  have h1 := h 1
  have h2 := h 2
  have h3 := h 3
  simp only [Fin.val_zero, Fin.val_one, Fin.val_two, Fin.isValue] at h0 h1 h2 h3
  interval_cases i
  · exact h0.1
  · exact h0.2.1
  · exact h0.2.2.1
  · exact h0.2.2.2
  · exact h1.1
  · exact h1.2.1
  · exact h1.2.2.1
  · exact h1.2.2.2
  · exact h2.1
  · exact h2.2.1
  · exact h2.2.2.1
  · exact h2.2.2.2
  · exact h3.1
  · exact h3.2.1
  · exact h3.2.2.1
  · exact h3.2.2.2

/-! Exclusive-or (R63). -/

theorem xorBlocks_comm (a b : Block) : xorBlocks a b = xorBlocks b a := by
  apply Vector.ext; intro i hi; simp [xorBlocks, BitVec.xor_comm]

@[simp] theorem xorBlocks_cancel (a b : Block) : xorBlocks (xorBlocks a b) b = a := by
  apply Vector.ext; intro i hi; simp [xorBlocks]

/-! Lengths the mode layer keeps. -/

@[simp] theorem length_chainBlocks (p : Pipeline) (bs : List Block) :
    ∀ lb, (chainBlocks p lb bs).1.length = bs.length := by
  induction bs with
  | nil => intro lb; rfl
  | cons b bs ih => intro lb; simp [chainBlocks, ih]

/-- Chain gives as many bytes as the whole blocks it is given hold (R84). -/
theorem length_chain (p : Pipeline) (lb : Block) (m : List Byte) :
    (chain p lb m).1.length = 16 * (m.length / 16) := by
  simp [chain]

/-- In ECB mode Chain leaves LB alone (R81). -/
theorem chain_ecb_lb (p : Pipeline) (lb : Block) (m : List Byte) (h : p.mode = .ecb) :
    (chain p lb m).2 = lb := by
  unfold chain
  generalize blocksOf (m.length / 16) m = bs
  induction bs generalizing lb with
  | nil => rfl
  | cons b bs ih => simpa [chainBlocks, chainBlock, h] using ih lb

end Sys2Proof.Machine
end

