-- ==== Sys2Proof/Laws/Memory.lean ====
section
/-! SUPPORT. The laws of memory: what a read sees after a write, and that every memory operation keeps the
canonical form. -/

namespace Sys2Proof.Machine

@[simp] theorem Memory.read_nil (a : Nat) : Memory.read [] a = Memory.unlisted a := rfl

theorem Memory.read_cons (k : Nat) (v : Byte) (m : Memory) (a : Nat) :
    Memory.read ((k, v) :: m) a = if a = k then v else Memory.read m a := rfl

/-- A read at an address no entry lists. -/
theorem Memory.read_unlisted {m : Memory} {a : Nat} (h : ∀ c ∈ m, c.1 ≠ a) :
    m.read a = Memory.unlisted a := by
  induction m with
  | nil => rfl
  | cons c m ih =>
    obtain ⟨k, v⟩ := c
    have hk : a ≠ k := fun e => h (k, v) (by simp) e.symm
    rw [Memory.read_cons, if_neg hk]
    exact ih fun c hc => h c (by simp [hc])

/-- Reading past the entries of another address. -/
theorem Memory.read_others (m : Memory) {a b : Nat} (h : b ≠ a) :
    Memory.read (m.filter fun c => !decide (c.1 = a)) b = m.read b := by
  induction m with
  | nil => rfl
  | cons c m ih =>
    obtain ⟨k, v⟩ := c
    by_cases hk : k = a
    · subst hk; simp [Memory.read_cons, h, ih]
    · simp [hk, Memory.read_cons, ih]

/-- A read after an entry has been added, if the address was not listed. -/
theorem Memory.read_place {m : Memory} {a : Nat} (v : Byte) (h : ∀ c ∈ m, c.1 ≠ a) (b : Nat) :
    (m.place a v).read b = if b = a then v else m.read b := by
  induction m with
  | nil => rfl
  | cons c m ih =>
    obtain ⟨k, w⟩ := c
    have hk : k ≠ a := h (k, w) (by simp)
    have ih' := ih fun c hc => h c (by simp [hc])
    unfold Memory.place
    by_cases hlt : a < k
    · simp [hlt, Memory.read_cons]
    · rw [if_neg hlt, Memory.read_cons, ih', Memory.read_cons]
      by_cases hb : b = k
      · simp [hb, hk]
      · simp [hb]

/-- What a read sees after a write: the byte written at its address, and at every other address what
was there. -/
@[simp] theorem Memory.read_write (m : Memory) (a : Nat) (v : Byte) (b : Nat) :
    (m.write a v).read b = if b = a then v else m.read b := by
  have hne : ∀ c ∈ m.filter (fun c => !decide (c.1 = a)), c.1 ≠ a := by
    intro c hc; simpa using (List.mem_filter.mp hc).2
  unfold Memory.write
  by_cases hv : v = Memory.unlisted a
  · simp only [hv, if_true]
    by_cases hb : b = a
    · subst hb; rw [Memory.read_unlisted hne]; simp
    · rw [Memory.read_others m hb]; simp [hb]
  · simp only [hv, if_false]
    rw [Memory.read_place v hne]
    by_cases hb : b = a
    · simp [hb]
    · simp only [hb, if_false]; exact Memory.read_others m hb

/-- What a read sees after a string is stored: its own byte of the string inside the range, and what
was there outside. -/
theorem Memory.read_writeBytes (bs : List Byte) : ∀ (m : Memory) (a b : Nat),
    (m.writeBytes a bs).read b =
      if a ≤ b ∧ b < a + bs.length then bs.getD (b - a) 0 else m.read b := by
  induction bs with
  | nil => intro m a b; simp [Memory.writeBytes]
  | cons v bs ih =>
    intro m a b
    rw [Memory.writeBytes, ih, Memory.read_write]
    by_cases h1 : a + 1 ≤ b ∧ b < a + 1 + bs.length
    · have h2 : a ≤ b ∧ b < a + (v :: bs).length := by simp; omega
      have h3 : b - a = (b - (a + 1)) + 1 := by omega
      rw [if_pos h1, if_pos h2, h3, List.getD_cons_succ]
    · rw [if_neg h1]
      by_cases h2 : b = a
      · subst h2; simp
      · have h3 : ¬(a ≤ b ∧ b < a + (v :: bs).length) := by simp at h1 ⊢; omega
        rw [if_neg h2, if_neg h3]

/-- Bytes outside the range of a store read as before. -/
theorem Memory.read_writeBytes_outside (m : Memory) (a : Nat) (bs : List Byte) {b : Nat}
    (h : ¬(a ≤ b ∧ b < a + bs.length)) : (m.writeBytes a bs).read b = m.read b := by
  rw [Memory.read_writeBytes, if_neg h]

@[simp] theorem Memory.length_readBytes (m : Memory) (n : Nat) :
    ∀ a, (m.readBytes a n).length = n := by
  induction n with
  | zero => intro a; rfl
  | succ n ih => intro a; simp [Memory.readBytes, ih]

/-- Byte `i` of a string read from memory is the byte at the address `i` above its start (R31). -/
theorem Memory.getElem_readBytes (m : Memory) : ∀ (n a i : Nat) (h : i < n),
    (m.readBytes a n)[i]'(by simpa using h) = m.read (a + i) := by
  intro n
  induction n with
  | zero => intro a i h; omega
  | succ n ih =>
    intro a i h
    cases i with
    | zero => rfl
    | succ i =>
      simp only [Memory.readBytes, List.getElem_cons_succ]
      rw [ih (a + 1) i (by omega)]; congr 1; omega

/-- A string read from memory depends only on the bytes of its range. -/
theorem Memory.readBytes_congr {m m' : Memory} : ∀ {n a : Nat},
    (∀ b, a ≤ b → b < a + n → m.read b = m'.read b) → m.readBytes a n = m'.readBytes a n := by
  intro n
  induction n with
  | zero => intros; rfl
  | succ n ih =>
    intro a h
    rw [Memory.readBytes, Memory.readBytes, h a (by omega) (by omega),
      ih fun b hb hb' => h b (by omega) (by omega)]

/-- A string stored and read back at the same place. -/
theorem Memory.readBytes_writeBytes (m : Memory) (a : Nat) (bs : List Byte) :
    (m.writeBytes a bs).readBytes a bs.length = bs := by
  apply List.ext_getElem (by simp)
  intro i h1 h2
  rw [Memory.getElem_readBytes _ _ _ _ h2, Memory.read_writeBytes]
  simp [h2]

/-- A string read from a range that a store does not touch. -/
theorem Memory.readBytes_writeBytes_disjoint (m : Memory) (a : Nat) (bs : List Byte) (b n : Nat)
    (h : b + n ≤ a ∨ a + bs.length ≤ b) :
    (m.writeBytes a bs).readBytes b n = m.readBytes b n := by
  apply Memory.readBytes_congr
  intro c h1 h2
  exact Memory.read_writeBytes_outside m a bs (by omega)

/-! The canonical form. -/

theorem Memory.wf_cons (k : Nat) (v : Byte) (m : Memory) :
    Memory.wf ((k, v) :: m) = true ↔
      v ≠ Memory.unlisted k ∧ (∀ c ∈ m, k < c.1) ∧ m.wf = true := by
  simp [Memory.wf, and_assoc]

theorem Memory.wf_filter {m : Memory} (p : Host.Cell → Bool) (h : m.wf = true) :
    Memory.wf (m.filter p) = true := by
  induction m with
  | nil => rfl
  | cons c m ih =>
    obtain ⟨k, v⟩ := c
    rw [Memory.wf_cons] at h
    by_cases hp : p (k, v) = true
    · rw [List.filter_cons_of_pos hp, Memory.wf_cons]
      exact ⟨h.1, fun c hc => h.2.1 c (List.mem_filter.mp hc).1, ih h.2.2⟩
    · rw [List.filter_cons_of_neg hp]; exact ih h.2.2

theorem Memory.mem_place {m : Memory} {a : Nat} {v : Byte} {c : Host.Cell}
    (h : c ∈ m.place a v) : c = (a, v) ∨ c ∈ m := by
  induction m with
  | nil => simpa [Memory.place] using h
  | cons d m ih =>
    obtain ⟨k, w⟩ := d
    unfold Memory.place at h
    split at h
    · simpa using h
    · rcases List.mem_cons.mp h with h | h
      · exact .inr (by simp [h])
      · exact (ih h).imp id fun h => by simp [h]

theorem Memory.wf_place {m : Memory} {a : Nat} {v : Byte} (hv : v ≠ Memory.unlisted a)
    (hne : ∀ c ∈ m, c.1 ≠ a) (h : m.wf = true) : (m.place a v).wf = true := by
  induction m with
  | nil => exact (Memory.wf_cons _ _ _).2 ⟨hv, by simp, rfl⟩
  | cons d m ih =>
    obtain ⟨k, w⟩ := d
    have hw := (Memory.wf_cons _ _ _).1 h
    have hk : k ≠ a := hne (k, w) (by simp)
    unfold Memory.place
    split
    · next hlt =>
      refine (Memory.wf_cons _ _ _).2 ⟨hv, fun c hc => ?_, h⟩
      rcases List.mem_cons.mp hc with rfl | hc
      · exact hlt
      · exact Nat.lt_trans hlt (hw.2.1 c hc)
    · next hlt =>
      refine (Memory.wf_cons _ _ _).2
        ⟨hw.1, fun c hc => ?_, ih (fun c hc => hne c (by simp [hc])) hw.2.2⟩
      rcases Memory.mem_place hc with rfl | hc
      · show k < a; omega
      · exact hw.2.1 c hc

/-- A write keeps the canonical form. -/
theorem Memory.wf_write {m : Memory} (a : Nat) (v : Byte) (h : m.wf = true) :
    (m.write a v).wf = true := by
  have hf := Memory.wf_filter (fun c => !decide (c.1 = a)) h
  unfold Memory.write
  by_cases hv : v = Memory.unlisted a
  · simpa [hv] using hf
  · simp only [hv, if_false]
    exact Memory.wf_place hv (fun c hc => by simpa using (List.mem_filter.mp hc).2) hf

/-- Storing a string keeps the canonical form. -/
theorem Memory.wf_writeBytes (bs : List Byte) : ∀ {m : Memory} (a : Nat), m.wf = true →
    (m.writeBytes a bs).wf = true := by
  induction bs with
  | nil => intro m a h; exact h
  | cons b bs ih => intro m a h; exact ih (a + 1) (Memory.wf_write a b h)

/-- Which addresses a write can list. -/
theorem Memory.mem_write {m : Memory} {a : Nat} {v : Byte} {c : Host.Cell} (h : c ∈ m.write a v) :
    c.1 = a ∨ c ∈ m := by
  unfold Memory.write at h
  by_cases hv : v = Memory.unlisted a
  · simp only [hv, if_true] at h; exact .inr (List.mem_filter.mp h).1
  · simp only [hv, if_false] at h
    rcases Memory.mem_place h with rfl | h
    · exact .inl rfl
    · exact .inr (List.mem_filter.mp h).1

/-- Which addresses the store of a string can list. -/
theorem Memory.mem_writeBytes (bs : List Byte) : ∀ {m : Memory} {a : Nat} {c : Host.Cell},
    c ∈ m.writeBytes a bs → (a ≤ c.1 ∧ c.1 < a + bs.length) ∨ c ∈ m := by
  induction bs with
  | nil => intro m a c h; exact .inr h
  | cons b bs ih =>
    intro m a c h
    rcases ih h with h | h
    · left; simp; omega
    · rcases Memory.mem_write h with h | h
      · left; simp; omega
      · exact .inr h

/-- The general step of `blend`: at each address, the new byte if the address is one of the list and
is picked. -/
theorem Memory.read_blend_aux (new : Memory) (pick : Nat → Bool) (l : List Nat) :
    ∀ (m : Memory) (b : Nat),
      (l.foldl (fun m a => if pick a then m.write a (new.read a) else m) m).read b =
        if b ∈ l ∧ pick b = true then new.read b else m.read b := by
  induction l with
  | nil => intro m b; simp
  | cons a l ih =>
    intro m b
    rw [List.foldl_cons, ih]
    by_cases hb : b ∈ l ∧ pick b = true
    · rw [if_pos hb, if_pos ⟨List.mem_cons_of_mem _ hb.1, hb.2⟩]
    · rw [if_neg hb]
      by_cases hab : b = a
      · subst hab
        by_cases hp : pick b = true <;> simp [hp]
      · have : ¬(b ∈ a :: l ∧ pick b = true) := by simpa [hab] using hb
        rw [if_neg this]
        split
        · simp [hab]
        · rfl

/-- A blend reads, at each address, as the new memory where it is picked and as the old one
elsewhere. -/
theorem Memory.read_blend (old new : Memory) (pick : Nat → Bool) (b : Nat) :
    (old.blend new pick).read b = if pick b = true then new.read b else old.read b := by
  unfold Memory.blend
  rw [Memory.read_blend_aux]
  by_cases hp : pick b = true
  · by_cases hb : b ∈ new.map (·.1) ++ old.map (·.1)
    · simp [hb, hp]
    · have h1 : ∀ c ∈ new, c.1 ≠ b := fun c hc e => hb (by
        rw [← e]; exact List.mem_append_left _ (List.mem_map_of_mem hc))
      have h2 : ∀ c ∈ old, c.1 ≠ b := fun c hc e => hb (by
        rw [← e]; exact List.mem_append_right _ (List.mem_map_of_mem hc))
      simp [hp, Memory.read_unlisted h1, Memory.read_unlisted h2]
  · simp [hp]

/-- A blend keeps the canonical form. -/
theorem Memory.wf_blend {old : Memory} (new : Memory) (pick : Nat → Bool) (h : old.wf = true) :
    (old.blend new pick).wf = true := by
  unfold Memory.blend
  generalize new.map (·.1) ++ old.map (·.1) = l
  induction l generalizing old with
  | nil => exact h
  | cons a l ih =>
    rw [List.foldl_cons]
    apply ih
    split
    · exact Memory.wf_write a _ h
    · exact h

/-- A blend lists only addresses that one of the two memories lists. -/
theorem Memory.mem_blend {old new : Memory} {pick : Nat → Bool} {c : Host.Cell}
    (h : c ∈ old.blend new pick) : (∃ d ∈ old, d.1 = c.1) ∨ ∃ d ∈ new, d.1 = c.1 := by
  have key : ∀ (l : List Nat) (m : Memory),
      c ∈ l.foldl (fun m a => if pick a then m.write a (new.read a) else m) m →
        c.1 ∈ l ∨ c ∈ m := by
    intro l
    induction l with
    | nil => intro m h; exact .inr h
    | cons a l ih =>
      intro m h
      rcases ih _ h with h | h
      · exact .inl (List.mem_cons_of_mem _ h)
      · dsimp only at h
        split at h
        · rcases Memory.mem_write h with h | h
          · exact .inl (by simp [h])
          · exact .inr h
        · exact .inr h
  rcases key _ _ h with h | h
  · rcases List.mem_append.mp h with h | h
    · obtain ⟨d, hd, e⟩ := List.mem_map.mp h; exact .inr ⟨d, hd, e⟩
    · obtain ⟨d, hd, e⟩ := List.mem_map.mp h; exact .inl ⟨d, hd, e⟩
  · exact .inl ⟨c, h, rfl⟩

end Sys2Proof.Machine
end

