-- ==== Sys2Proof/Laws/State.lean ====
section
/-! SUPPORT. What each update of the state leaves in each field: one lemma per field per update, so that
no later proof unfolds a record update. -/

namespace Sys2Proof.Machine

@[simp] theorem State.respond_phase (s : State) (st : Status) (n : Nat) :
    (s.respond st n).phase = s.phase := rfl
@[simp] theorem State.respond_dir (s : State) (st : Status) (n : Nat) :
    (s.respond st n).dir = s.dir := rfl
@[simp] theorem State.respond_mode (s : State) (st : Status) (n : Nat) :
    (s.respond st n).mode = s.mode := rfl
@[simp] theorem State.respond_pad (s : State) (st : Status) (n : Nat) :
    (s.respond st n).pad = s.pad := rfl
@[simp] theorem State.respond_rk (s : State) (st : Status) (n : Nat) :
    (s.respond st n).rk = s.rk := rfl
@[simp] theorem State.respond_iv (s : State) (st : Status) (n : Nat) :
    (s.respond st n).iv = s.iv := rfl
@[simp] theorem State.respond_lb (s : State) (st : Status) (n : Nat) :
    (s.respond st n).lb = s.lb := rfl
@[simp] theorem State.respond_wb (s : State) (st : Status) (n : Nat) :
    (s.respond st n).wb = s.wb := rfl
@[simp] theorem State.respond_hasWb (s : State) (st : Status) (n : Nat) :
    (s.respond st n).hasWb = s.hasWb := rfl
@[simp] theorem State.respond_status (s : State) (st : Status) (n : Nat) :
    (s.respond st n).status = st := rfl
@[simp] theorem State.respond_count (s : State) (st : Status) (n : Nat) :
    (s.respond st n).count = BitVec.ofNat 32 n := rfl
@[simp] theorem State.respond_x (s : State) (st : Status) (n : Nat) :
    (s.respond st n).x = s.x := rfl
@[simp] theorem State.respond_mem (s : State) (st : Status) (n : Nat) :
    (s.respond st n).mem = s.mem := rfl
@[simp] theorem State.respond_platform (s : State) (st : Status) (n : Nat) :
    (s.respond st n).platform = s.platform := rfl
@[simp] theorem State.respond_host (s : State) (st : Status) (n : Nat) :
    (s.respond st n).host = s.host := rfl
@[simp] theorem State.respond_draws (s : State) (st : Status) (n : Nat) :
    (s.respond st n).draws = s.draws := rfl

@[simp] theorem State.clobberX_phase (s : State) :
    s.clobberX.phase = s.phase := rfl
@[simp] theorem State.clobberX_dir (s : State) :
    s.clobberX.dir = s.dir := rfl
@[simp] theorem State.clobberX_mode (s : State) :
    s.clobberX.mode = s.mode := rfl
@[simp] theorem State.clobberX_pad (s : State) :
    s.clobberX.pad = s.pad := rfl
@[simp] theorem State.clobberX_rk (s : State) :
    s.clobberX.rk = s.rk := rfl
@[simp] theorem State.clobberX_iv (s : State) :
    s.clobberX.iv = s.iv := rfl
@[simp] theorem State.clobberX_lb (s : State) :
    s.clobberX.lb = s.lb := rfl
@[simp] theorem State.clobberX_wb (s : State) :
    s.clobberX.wb = s.wb := rfl
@[simp] theorem State.clobberX_hasWb (s : State) :
    s.clobberX.hasWb = s.hasWb := rfl
@[simp] theorem State.clobberX_status (s : State) :
    s.clobberX.status = s.status := rfl
@[simp] theorem State.clobberX_count (s : State) :
    s.clobberX.count = s.count := rfl
@[simp] theorem State.clobberX_x (s : State) :
    s.clobberX.x = Config.scratch s.draws := rfl
@[simp] theorem State.clobberX_mem (s : State) :
    s.clobberX.mem = s.mem := rfl
@[simp] theorem State.clobberX_platform (s : State) :
    s.clobberX.platform = s.platform := rfl
@[simp] theorem State.clobberX_host (s : State) :
    s.clobberX.host = s.host := rfl
@[simp] theorem State.clobberX_draws (s : State) :
    s.clobberX.draws = s.draws + 1 := rfl

@[simp] theorem State.discard_phase (s : State) :
    s.discard.phase = .unbuilt := rfl
@[simp] theorem State.discard_dir (s : State) :
    s.discard.dir = .encrypt := rfl
@[simp] theorem State.discard_mode (s : State) :
    s.discard.mode = .ecb := rfl
@[simp] theorem State.discard_pad (s : State) :
    s.discard.pad = .none := rfl
@[simp] theorem State.discard_rk (s : State) :
    s.discard.rk = Vector.replicate 32 0 := rfl
@[simp] theorem State.discard_iv (s : State) :
    s.discard.iv = Block.zero := rfl
@[simp] theorem State.discard_lb (s : State) :
    s.discard.lb = Block.zero := rfl
@[simp] theorem State.discard_wb (s : State) :
    s.discard.wb = Block.zero := rfl
@[simp] theorem State.discard_hasWb (s : State) :
    s.discard.hasWb = false := rfl
@[simp] theorem State.discard_status (s : State) :
    s.discard.status = s.status := rfl
@[simp] theorem State.discard_count (s : State) :
    s.discard.count = s.count := rfl
@[simp] theorem State.discard_x (s : State) :
    s.discard.x = s.x := rfl
@[simp] theorem State.discard_mem (s : State) :
    s.discard.mem = s.mem := rfl
@[simp] theorem State.discard_platform (s : State) :
    s.discard.platform = s.platform := rfl
@[simp] theorem State.discard_host (s : State) :
    s.discard.host = s.host := rfl
@[simp] theorem State.discard_draws (s : State) :
    s.discard.draws = s.draws := rfl

@[simp] theorem State.closeMessage_phase (s : State) :
    s.closeMessage.phase = s.phase := rfl
@[simp] theorem State.closeMessage_dir (s : State) :
    s.closeMessage.dir = s.dir := rfl
@[simp] theorem State.closeMessage_mode (s : State) :
    s.closeMessage.mode = s.mode := rfl
@[simp] theorem State.closeMessage_pad (s : State) :
    s.closeMessage.pad = s.pad := rfl
@[simp] theorem State.closeMessage_rk (s : State) :
    s.closeMessage.rk = s.rk := rfl
@[simp] theorem State.closeMessage_iv (s : State) :
    s.closeMessage.iv = s.iv := rfl
@[simp] theorem State.closeMessage_lb (s : State) :
    s.closeMessage.lb = s.iv := rfl
@[simp] theorem State.closeMessage_wb (s : State) :
    s.closeMessage.wb = Block.zero := rfl
@[simp] theorem State.closeMessage_hasWb (s : State) :
    s.closeMessage.hasWb = false := rfl
@[simp] theorem State.closeMessage_status (s : State) :
    s.closeMessage.status = s.status := rfl
@[simp] theorem State.closeMessage_count (s : State) :
    s.closeMessage.count = s.count := rfl
@[simp] theorem State.closeMessage_x (s : State) :
    s.closeMessage.x = s.x := rfl
@[simp] theorem State.closeMessage_mem (s : State) :
    s.closeMessage.mem = s.mem := rfl
@[simp] theorem State.closeMessage_platform (s : State) :
    s.closeMessage.platform = s.platform := rfl
@[simp] theorem State.closeMessage_host (s : State) :
    s.closeMessage.host = s.host := rfl
@[simp] theorem State.closeMessage_draws (s : State) :
    s.closeMessage.draws = s.draws := rfl

@[simp] theorem State.failMessage_phase (s : State) :
    s.failMessage.phase = .failed := rfl
@[simp] theorem State.failMessage_dir (s : State) :
    s.failMessage.dir = s.dir := rfl
@[simp] theorem State.failMessage_mode (s : State) :
    s.failMessage.mode = s.mode := rfl
@[simp] theorem State.failMessage_pad (s : State) :
    s.failMessage.pad = s.pad := rfl
@[simp] theorem State.failMessage_rk (s : State) :
    s.failMessage.rk = s.rk := rfl
@[simp] theorem State.failMessage_iv (s : State) :
    s.failMessage.iv = s.iv := rfl
@[simp] theorem State.failMessage_lb (s : State) :
    s.failMessage.lb = s.iv := rfl
@[simp] theorem State.failMessage_wb (s : State) :
    s.failMessage.wb = Block.zero := rfl
@[simp] theorem State.failMessage_hasWb (s : State) :
    s.failMessage.hasWb = false := rfl
@[simp] theorem State.failMessage_status (s : State) :
    s.failMessage.status = s.status := rfl
@[simp] theorem State.failMessage_count (s : State) :
    s.failMessage.count = s.count := rfl
@[simp] theorem State.failMessage_x (s : State) :
    s.failMessage.x = s.x := rfl
@[simp] theorem State.failMessage_mem (s : State) :
    s.failMessage.mem = s.mem := rfl
@[simp] theorem State.failMessage_platform (s : State) :
    s.failMessage.platform = s.platform := rfl
@[simp] theorem State.failMessage_host (s : State) :
    s.failMessage.host = s.host := rfl
@[simp] theorem State.failMessage_draws (s : State) :
    s.failMessage.draws = s.draws := rfl

@[simp] theorem State.withhold_phase (s : State) (b : Block) :
    (s.withhold b).phase = s.phase := rfl
@[simp] theorem State.withhold_dir (s : State) (b : Block) :
    (s.withhold b).dir = s.dir := rfl
@[simp] theorem State.withhold_mode (s : State) (b : Block) :
    (s.withhold b).mode = s.mode := rfl
@[simp] theorem State.withhold_pad (s : State) (b : Block) :
    (s.withhold b).pad = s.pad := rfl
@[simp] theorem State.withhold_rk (s : State) (b : Block) :
    (s.withhold b).rk = s.rk := rfl
@[simp] theorem State.withhold_iv (s : State) (b : Block) :
    (s.withhold b).iv = s.iv := rfl
@[simp] theorem State.withhold_lb (s : State) (b : Block) :
    (s.withhold b).lb = s.lb := rfl
@[simp] theorem State.withhold_wb (s : State) (b : Block) :
    (s.withhold b).wb = b := rfl
@[simp] theorem State.withhold_hasWb (s : State) (b : Block) :
    (s.withhold b).hasWb = true := rfl
@[simp] theorem State.withhold_status (s : State) (b : Block) :
    (s.withhold b).status = s.status := rfl
@[simp] theorem State.withhold_count (s : State) (b : Block) :
    (s.withhold b).count = s.count := rfl
@[simp] theorem State.withhold_x (s : State) (b : Block) :
    (s.withhold b).x = s.x := rfl
@[simp] theorem State.withhold_mem (s : State) (b : Block) :
    (s.withhold b).mem = s.mem := rfl
@[simp] theorem State.withhold_platform (s : State) (b : Block) :
    (s.withhold b).platform = s.platform := rfl
@[simp] theorem State.withhold_host (s : State) (b : Block) :
    (s.withhold b).host = s.host := rfl
@[simp] theorem State.withhold_draws (s : State) (b : Block) :
    (s.withhold b).draws = s.draws := rfl

@[simp] theorem State.build_phase (s : State) (d : Direction) (m : Mode) (p : Padding) (k v : Block) :
    (s.build d m p k v).phase = .ready := rfl
@[simp] theorem State.build_dir (s : State) (d : Direction) (m : Mode) (p : Padding) (k v : Block) :
    (s.build d m p k v).dir = d := rfl
@[simp] theorem State.build_mode (s : State) (d : Direction) (m : Mode) (p : Padding) (k v : Block) :
    (s.build d m p k v).mode = m := rfl
@[simp] theorem State.build_pad (s : State) (d : Direction) (m : Mode) (p : Padding) (k v : Block) :
    (s.build d m p k v).pad = p := rfl
@[simp] theorem State.build_rk (s : State) (d : Direction) (m : Mode) (p : Padding) (k v : Block) :
    (s.build d m p k v).rk = keySchedule k d := rfl
@[simp] theorem State.build_iv (s : State) (d : Direction) (m : Mode) (p : Padding) (k v : Block) :
    (s.build d m p k v).iv = v := rfl
@[simp] theorem State.build_lb (s : State) (d : Direction) (m : Mode) (p : Padding) (k v : Block) :
    (s.build d m p k v).lb = v := rfl
@[simp] theorem State.build_wb (s : State) (d : Direction) (m : Mode) (p : Padding) (k v : Block) :
    (s.build d m p k v).wb = Block.zero := rfl
@[simp] theorem State.build_hasWb (s : State) (d : Direction) (m : Mode) (p : Padding) (k v : Block) :
    (s.build d m p k v).hasWb = false := rfl
@[simp] theorem State.build_status (s : State) (d : Direction) (m : Mode) (p : Padding) (k v : Block) :
    (s.build d m p k v).status = s.status := rfl
@[simp] theorem State.build_count (s : State) (d : Direction) (m : Mode) (p : Padding) (k v : Block) :
    (s.build d m p k v).count = s.count := rfl
@[simp] theorem State.build_x (s : State) (d : Direction) (m : Mode) (p : Padding) (k v : Block) :
    (s.build d m p k v).x = Config.scratch s.draws := rfl
@[simp] theorem State.build_mem (s : State) (d : Direction) (m : Mode) (p : Padding) (k v : Block) :
    (s.build d m p k v).mem = s.mem := rfl
@[simp] theorem State.build_platform (s : State) (d : Direction) (m : Mode) (p : Padding) (k v : Block) :
    (s.build d m p k v).platform = s.platform := rfl
@[simp] theorem State.build_host (s : State) (d : Direction) (m : Mode) (p : Padding) (k v : Block) :
    (s.build d m p k v).host = s.host := rfl
@[simp] theorem State.build_draws (s : State) (d : Direction) (m : Mode) (p : Padding) (k v : Block) :
    (s.build d m p k v).draws = s.draws + 1 := rfl

@[simp] theorem State.resetEngine_phase (s : State) :
    s.resetEngine.phase = State.reset.phase := rfl
@[simp] theorem State.resetEngine_dir (s : State) :
    s.resetEngine.dir = State.reset.dir := rfl
@[simp] theorem State.resetEngine_mode (s : State) :
    s.resetEngine.mode = State.reset.mode := rfl
@[simp] theorem State.resetEngine_pad (s : State) :
    s.resetEngine.pad = State.reset.pad := rfl
@[simp] theorem State.resetEngine_rk (s : State) :
    s.resetEngine.rk = State.reset.rk := rfl
@[simp] theorem State.resetEngine_iv (s : State) :
    s.resetEngine.iv = State.reset.iv := rfl
@[simp] theorem State.resetEngine_lb (s : State) :
    s.resetEngine.lb = State.reset.lb := rfl
@[simp] theorem State.resetEngine_wb (s : State) :
    s.resetEngine.wb = State.reset.wb := rfl
@[simp] theorem State.resetEngine_hasWb (s : State) :
    s.resetEngine.hasWb = State.reset.hasWb := rfl
@[simp] theorem State.resetEngine_status (s : State) :
    s.resetEngine.status = State.reset.status := rfl
@[simp] theorem State.resetEngine_count (s : State) :
    s.resetEngine.count = State.reset.count := rfl
@[simp] theorem State.resetEngine_x (s : State) :
    s.resetEngine.x = State.reset.x := rfl
@[simp] theorem State.resetEngine_mem (s : State) :
    s.resetEngine.mem = s.mem := rfl
@[simp] theorem State.resetEngine_platform (s : State) :
    s.resetEngine.platform = s.platform := rfl
@[simp] theorem State.resetEngine_host (s : State) :
    s.resetEngine.host = s.host := rfl
@[simp] theorem State.resetEngine_draws (s : State) :
    s.resetEngine.draws = s.draws := rfl

/-- The pipeline is the three configuration registers the mode layer reads. -/
@[simp] theorem State.pipeline_mode (s : State) : s.pipeline.mode = s.mode := rfl
@[simp] theorem State.pipeline_dir (s : State) : s.pipeline.dir = s.dir := rfl
@[simp] theorem State.pipeline_rk (s : State) : s.pipeline.rk = s.rk := rfl

@[simp] theorem State.raise_configuration (s : State) :
    s.raise .configuration = s.discard.respond .configurationError 0 := rfl
@[simp] theorem State.raise_usageInMessage (s : State) :
    s.raise .usageInMessage = s.failMessage.respond .usageError 0 := rfl
@[simp] theorem State.raise_usageRefused (s : State) :
    s.raise .usageRefused = s.respond .usageError 0 := rfl
@[simp] theorem State.raise_padding (s : State) :
    s.raise .padding = s.failMessage.respond .paddingValidationError 0 := rfl

/-- No error entry writes memory, the platform or the host's sequence (R134). -/
theorem State.raise_frame (s : State) (e : ErrorEntry) :
    (s.raise e).mem = s.mem ∧ (s.raise e).platform = s.platform ∧ (s.raise e).host = s.host ∧
      (s.raise e).draws = s.draws ∧ (s.raise e).count = 0 := by
  cases e <;> exact ⟨rfl, rfl, rfl, rfl, rfl⟩

end Sys2Proof.Machine
end

