-- ==== Sys2Proof/Laws/Commands.lean ====
section
/-! SUPPORT. What each shared operation and each meaning can do, said once: the fields Chain and the
padding layer leave alone, when an access is stuck, and, for each command, every way it can end. -/

namespace Sys2Proof.Machine

/-! Accesses (R31, R32). -/

theorem State.memRead_eq_ok {s : State} {a n : Nat} {bs : List Byte} :
    s.memRead a n = .ok bs ↔ admits s.platform .read a n = true ∧ bs = s.mem.readBytes a n := by
  cases h : admits s.platform .read a n
  · simp [State.memRead, h]
  · simp only [State.memRead, h, if_true, Except.ok.injEq, true_and]
    exact eq_comm

theorem State.memRead_eq_error {s : State} {a n : Nat} {f : Fault} :
    s.memRead a n = .error f ↔ admits s.platform .read a n = false ∧ f = .stuckRead a n := by
  cases h : admits s.platform .read a n
  · simp only [State.memRead, h, Bool.false_eq_true, if_false, Except.error.injEq, true_and]
    exact eq_comm
  · simp [State.memRead, h]

/-- The two ways the admission of an output range can go (R32). -/
theorem State.reserve_eq (s : State) (a n : Nat) :
    s.reserve a n = if admits s.platform .write a n then .ok () else .error (.stuckWrite a n) := rfl

/-- A range of length 0 is always admitted (R32). -/
@[simp] theorem admits_zero (p : Platform) (k : AccessKind) (a : Nat) : admits p k a 0 = true := by
  simp [admits]

/-- Every predicate MEM_ADMIT, on every address space, is the predicate of some platform (R7, R32): the
table may list each of the finitely many ranges by itself. -/
theorem exists_platform (bits : Nat) (memAdmit : Nat → Nat → AccessKind → Bool) :
    ∃ p : Platform, p.addrBits = bits ∧ ∀ kind addr n,
      admits p kind addr n = true ↔
        n = 0 ∨ (addr + n ≤ 2 ^ bits ∧ memAdmit addr n kind = true) := by
  let row := fun k a => ((List.range (2 ^ bits + 1)).filter fun n => memAdmit a n k).map (Grant.exact k a)
  refine ⟨⟨bits, [AccessKind.read, .write].flatMap fun k => (List.range (2 ^ bits)).flatMap (row k)⟩,
    rfl, fun kind addr n => ?_⟩
  by_cases hn : n = 0
  · simp [admits, hn]
  · simp only [admits, hn, decide_false, Bool.false_or, false_or, Bool.and_eq_true, decide_eq_true_eq,
      List.any_eq_true, List.mem_flatMap, row, List.mem_map, List.mem_filter, List.mem_range]
    refine and_congr_right fun hs => ⟨?_, fun hm => ?_⟩
    · rintro ⟨g, ⟨k, -, a, -, m, ⟨-, hm⟩, rfl⟩, hg⟩
      simp only [grantAdmits, Bool.and_eq_true, decide_eq_true_eq] at hg
      obtain ⟨⟨rfl, rfl⟩, rfl⟩ := hg
      exact hm
    · exact ⟨.exact kind addr n, ⟨kind, by cases kind <;> simp, addr, by omega, n,
        ⟨by omega, hm⟩, rfl⟩, by simp [grantAdmits]⟩

/-- An admitted range that is not empty lies below 2^ADDR_BITS (R32). -/
theorem admits_in_space {p : Platform} {k : AccessKind} {a n : Nat} (h : admits p k a n = true)
    (hn : n ≠ 0) : a + n ≤ 2 ^ p.addrBits := by
  simp [admits, hn] at h
  exact h.1

/-! What Chain on the engine's state leaves alone, and what it writes (R24, R84). -/

@[simp] theorem State.runChain_phase (s : State) (m : List Byte) :
    (s.runChain m).2.phase = s.phase := by
  unfold State.runChain; dsimp only; split <;> rfl
@[simp] theorem State.runChain_dir (s : State) (m : List Byte) :
    (s.runChain m).2.dir = s.dir := by
  unfold State.runChain; dsimp only; split <;> rfl
@[simp] theorem State.runChain_mode (s : State) (m : List Byte) :
    (s.runChain m).2.mode = s.mode := by
  unfold State.runChain; dsimp only; split <;> rfl
@[simp] theorem State.runChain_pad (s : State) (m : List Byte) :
    (s.runChain m).2.pad = s.pad := by
  unfold State.runChain; dsimp only; split <;> rfl
@[simp] theorem State.runChain_rk (s : State) (m : List Byte) :
    (s.runChain m).2.rk = s.rk := by
  unfold State.runChain; dsimp only; split <;> rfl
@[simp] theorem State.runChain_iv (s : State) (m : List Byte) :
    (s.runChain m).2.iv = s.iv := by
  unfold State.runChain; dsimp only; split <;> rfl
@[simp] theorem State.runChain_wb (s : State) (m : List Byte) :
    (s.runChain m).2.wb = s.wb := by
  unfold State.runChain; dsimp only; split <;> rfl
@[simp] theorem State.runChain_hasWb (s : State) (m : List Byte) :
    (s.runChain m).2.hasWb = s.hasWb := by
  unfold State.runChain; dsimp only; split <;> rfl
@[simp] theorem State.runChain_status (s : State) (m : List Byte) :
    (s.runChain m).2.status = s.status := by
  unfold State.runChain; dsimp only; split <;> rfl
@[simp] theorem State.runChain_count (s : State) (m : List Byte) :
    (s.runChain m).2.count = s.count := by
  unfold State.runChain; dsimp only; split <;> rfl
@[simp] theorem State.runChain_mem (s : State) (m : List Byte) :
    (s.runChain m).2.mem = s.mem := by
  unfold State.runChain; dsimp only; split <;> rfl
@[simp] theorem State.runChain_platform (s : State) (m : List Byte) :
    (s.runChain m).2.platform = s.platform := by
  unfold State.runChain; dsimp only; split <;> rfl
@[simp] theorem State.runChain_host (s : State) (m : List Byte) :
    (s.runChain m).2.host = s.host := by
  unfold State.runChain; dsimp only; split <;> rfl

@[simp] theorem State.runChain_nil (s : State) : s.runChain [] = ([], s) := rfl

theorem State.runChain_out (s : State) (m : List Byte) :
    (s.runChain m).1 = (chain s.pipeline s.lb m).1 := rfl

theorem State.runChain_lb (s : State) (m : List Byte) :
    (s.runChain m).2.lb = (chain s.pipeline s.lb m).2 := by
  unfold State.runChain; dsimp only
  split
  · next h => subst h; rfl
  · rfl

/-! What the padding layer leaves alone. -/

@[simp] theorem blockOutput_phase (c : List Byte) (s : State) :
    (blockOutput c s).2.phase = s.phase := by
  unfold blockOutput decryptBlock; split
  · dsimp only; split <;> simp
  · simp
@[simp] theorem blockOutput_dir (c : List Byte) (s : State) :
    (blockOutput c s).2.dir = s.dir := by
  unfold blockOutput decryptBlock; split
  · dsimp only; split <;> simp
  · simp
@[simp] theorem blockOutput_mode (c : List Byte) (s : State) :
    (blockOutput c s).2.mode = s.mode := by
  unfold blockOutput decryptBlock; split
  · dsimp only; split <;> simp
  · simp
@[simp] theorem blockOutput_pad (c : List Byte) (s : State) :
    (blockOutput c s).2.pad = s.pad := by
  unfold blockOutput decryptBlock; split
  · dsimp only; split <;> simp
  · simp
@[simp] theorem blockOutput_rk (c : List Byte) (s : State) :
    (blockOutput c s).2.rk = s.rk := by
  unfold blockOutput decryptBlock; split
  · dsimp only; split <;> simp
  · simp
@[simp] theorem blockOutput_iv (c : List Byte) (s : State) :
    (blockOutput c s).2.iv = s.iv := by
  unfold blockOutput decryptBlock; split
  · dsimp only; split <;> simp
  · simp
@[simp] theorem blockOutput_status (c : List Byte) (s : State) :
    (blockOutput c s).2.status = s.status := by
  unfold blockOutput decryptBlock; split
  · dsimp only; split <;> simp
  · simp
@[simp] theorem blockOutput_count (c : List Byte) (s : State) :
    (blockOutput c s).2.count = s.count := by
  unfold blockOutput decryptBlock; split
  · dsimp only; split <;> simp
  · simp
@[simp] theorem blockOutput_mem (c : List Byte) (s : State) :
    (blockOutput c s).2.mem = s.mem := by
  unfold blockOutput decryptBlock; split
  · dsimp only; split <;> simp
  · simp
@[simp] theorem blockOutput_platform (c : List Byte) (s : State) :
    (blockOutput c s).2.platform = s.platform := by
  unfold blockOutput decryptBlock; split
  · dsimp only; split <;> simp
  · simp
@[simp] theorem blockOutput_host (c : List Byte) (s : State) :
    (blockOutput c s).2.host = s.host := by
  unfold blockOutput decryptBlock; split
  · dsimp only; split <;> simp
  · simp
@[simp] theorem finalOutput_phase (m : List Byte) (s : State) :
    (finalOutput m s).2.phase = s.phase := by
  unfold finalOutput encryptFinal decryptFinal; split
  · simp
  · split <;> simp
@[simp] theorem finalOutput_dir (m : List Byte) (s : State) :
    (finalOutput m s).2.dir = s.dir := by
  unfold finalOutput encryptFinal decryptFinal; split
  · simp
  · split <;> simp
@[simp] theorem finalOutput_mode (m : List Byte) (s : State) :
    (finalOutput m s).2.mode = s.mode := by
  unfold finalOutput encryptFinal decryptFinal; split
  · simp
  · split <;> simp
@[simp] theorem finalOutput_pad (m : List Byte) (s : State) :
    (finalOutput m s).2.pad = s.pad := by
  unfold finalOutput encryptFinal decryptFinal; split
  · simp
  · split <;> simp
@[simp] theorem finalOutput_rk (m : List Byte) (s : State) :
    (finalOutput m s).2.rk = s.rk := by
  unfold finalOutput encryptFinal decryptFinal; split
  · simp
  · split <;> simp
@[simp] theorem finalOutput_iv (m : List Byte) (s : State) :
    (finalOutput m s).2.iv = s.iv := by
  unfold finalOutput encryptFinal decryptFinal; split
  · simp
  · split <;> simp
@[simp] theorem finalOutput_status (m : List Byte) (s : State) :
    (finalOutput m s).2.status = s.status := by
  unfold finalOutput encryptFinal decryptFinal; split
  · simp
  · split <;> simp
@[simp] theorem finalOutput_count (m : List Byte) (s : State) :
    (finalOutput m s).2.count = s.count := by
  unfold finalOutput encryptFinal decryptFinal; split
  · simp
  · split <;> simp
@[simp] theorem finalOutput_mem (m : List Byte) (s : State) :
    (finalOutput m s).2.mem = s.mem := by
  unfold finalOutput encryptFinal decryptFinal; split
  · simp
  · split <;> simp
@[simp] theorem finalOutput_platform (m : List Byte) (s : State) :
    (finalOutput m s).2.platform = s.platform := by
  unfold finalOutput encryptFinal decryptFinal; split
  · simp
  · split <;> simp
@[simp] theorem finalOutput_host (m : List Byte) (s : State) :
    (finalOutput m s).2.host = s.host := by
  unfold finalOutput encryptFinal decryptFinal; split
  · simp
  · split <;> simp

/-! The checks, in the words of the rules. -/

open Sys2Proof.Safety

/-- LOAD's validation fails exactly for the four causes of R131. -/
theorem loadConfiguration_eq_none {mode pad : BitVec 3} {kl vl : Word} :
    loadConfiguration mode pad kl vl = none ↔ ConfigurationFault mode pad kl vl := by
  have h1 := mode.isLt
  have h2 := pad.isLt
  unfold loadConfiguration ConfigurationFault modeOfCode paddingOfCode
  simp only [← BitVec.toNat_inj]
  by_cases hk : kl.toNat = 16
  · by_cases m0 : mode.toNat = 0
    · simp [hk, m0]; split_ifs <;> simp <;> omega
    · by_cases m1 : mode.toNat = 1
      · by_cases hv : vl.toNat = 16
        · simp [hk, m1, hv]; split_ifs <;> simp <;> omega
        · simp [hk, m1, hv]
      · have : 2 ≤ mode.toNat := by omega
        simp [hk, m0, m1, this]
  · simp [hk]

/-- LOAD's validation passes on the codes of a mode and a padding, with a key of 16 bytes and, in CBC
mode, an IV of 16 bytes. -/
theorem loadConfiguration_eq_some (m : Mode) (p : Padding) (vl : Word)
    (h : m = .cbc → vl.toNat = 16) :
    loadConfiguration (modeCode m) (paddingCode p) 16 vl = some (m, p) := by
  cases m <;> cases p <;>
    simp_all [loadConfiguration, modeOfCode, paddingOfCode, modeCode, paddingCode]

theorem badBlockCount_iff {n : Nat} : badBlockCount n = true ↔ BlockCountFault n := by
  rw [badBlockCount, Bool.or_eq_true, decide_eq_true_iff, decide_eq_true_iff]
  exact Iff.rfl

theorem badFinalCount_iff {s : State} {n : Nat} :
    badFinalCount s.dir s.pad n = true ↔ FinalCountFault s n := by
  rw [badFinalCount, Bool.or_eq_true, Bool.and_eq_true, decide_eq_true_iff, decide_eq_true_iff,
    decide_eq_true_iff]
  exact Iff.rfl

/-! Every way a command can end. -/

/-- LOAD: a configuration error, stuck on the key or on the IV, or a built pipeline (R111). -/
theorem execLoad_cases (dir : Direction) (mode pad : BitVec 3) (ka kl va vl : Word) (s : State) :
    (loadConfiguration mode pad kl vl = none ∧
      execLoad dir mode pad ka kl va vl s = .next (s.discard.raise .configuration)) ∨
    (∃ m p, loadConfiguration mode pad kl vl = some (m, p) ∧
      admits s.platform .read ka.toNat 16 = false ∧
      execLoad dir mode pad ka kl va vl s = .fault (.stuckRead ka.toNat 16)) ∨
    (∃ p, loadConfiguration mode pad kl vl = some (.cbc, p) ∧
      admits s.platform .read ka.toNat 16 = true ∧ admits s.platform .read va.toNat 16 = false ∧
      execLoad dir mode pad ka kl va vl s = .fault (.stuckRead va.toNat 16)) ∨
    (∃ m p iv, loadConfiguration mode pad kl vl = some (m, p) ∧
      admits s.platform .read ka.toNat 16 = true ∧
      (m = .ecb ∧ iv = List.replicate 16 0 ∨
        m = .cbc ∧ admits s.platform .read va.toNat 16 = true ∧
          iv = s.mem.readBytes va.toNat 16) ∧
      execLoad dir mode pad ka kl va vl s =
        .next ((s.discard.build dir m p (blockOfBytes (s.mem.readBytes ka.toNat 16))
          (blockOfBytes iv)).respond .ok 0)) := by
  unfold execLoad
  cases hc : loadConfiguration mode pad kl vl with
  | none => left; simp
  | some mp =>
    right
    obtain ⟨m, p⟩ := mp
    cases hk : admits s.platform .read ka.toNat 16 with
    | false => left; exact ⟨m, p, rfl, rfl, by simp [State.memRead, hk]⟩
    | true =>
      right
      cases m with
      | ecb =>
        right
        exact ⟨.ecb, p, _, rfl, rfl, .inl ⟨rfl, rfl⟩, by simp [State.memRead, State.readIv, hk]⟩
      | cbc =>
        cases hv : admits s.platform .read va.toNat 16 with
        | false => left; exact ⟨p, rfl, rfl, rfl, by simp [State.memRead, State.readIv, hk, hv]⟩
        | true =>
          right
          exact ⟨.cbc, p, _, rfl, rfl, .inr ⟨rfl, rfl, rfl⟩,
            by simp [State.memRead, State.readIv, hk, hv]⟩

/-- BLOCK: refused outside READY, a bad count, stuck on its input or its output, or done (R112). -/
theorem execBlock_cases (ia ic oa : Word) (s : State) :
    (s.phase ≠ .ready ∧ execBlock ia ic oa s = .next (s.raise .usageRefused)) ∨
    (s.phase = .ready ∧ badBlockCount ic.toNat = true ∧
      execBlock ia ic oa s = .next (s.raise .usageInMessage)) ∨
    (s.phase = .ready ∧ badBlockCount ic.toNat = false ∧
      admits s.platform .read ia.toNat ic.toNat = false ∧
      execBlock ia ic oa s = .fault (.stuckRead ia.toNat ic.toNat)) ∨
    (∃ r, r = blockOutput (s.mem.readBytes ia.toNat ic.toNat) s ∧
      s.phase = .ready ∧ badBlockCount ic.toNat = false ∧
      admits s.platform .read ia.toNat ic.toNat = true ∧
      execBlock ia ic oa s =
        if admits s.platform .write oa.toNat r.1.length then .next (r.2.deliver oa.toNat r.1)
        else .fault (.stuckWrite oa.toNat r.1.length)) := by
  unfold execBlock
  by_cases hp : s.phase = .ready
  · cases hb : badBlockCount ic.toNat <;> cases ha : admits s.platform .read ia.toNat ic.toNat <;>
      cases hw : admits s.platform .write oa.toNat
        (blockOutput (s.mem.readBytes ia.toNat ic.toNat) s).1.length <;>
      simp [hp, State.memRead, ha, State.reserve, hw]
  · simp [hp]

/-- FINAL: refused outside READY, a bad count, stuck on its input or its output, a padding error, or
done (R113, R138). -/
theorem execFinal_cases (ia ic oa : Word) (s : State) :
    (s.phase ≠ .ready ∧ execFinal ia ic oa s = .next (s.raise .usageRefused)) ∨
    (s.phase = .ready ∧ badFinalCount s.dir s.pad ic.toNat = true ∧
      execFinal ia ic oa s = .next (s.raise .usageInMessage)) ∨
    (s.phase = .ready ∧ badFinalCount s.dir s.pad ic.toNat = false ∧
      admits s.platform .read ia.toNat ic.toNat = false ∧
      execFinal ia ic oa s = .fault (.stuckRead ia.toNat ic.toNat)) ∨
    (∃ m n r, m = s.mem.readBytes ia.toNat ic.toNat ∧ n = outputLength m s ∧ r = finalOutput m s ∧
      s.phase = .ready ∧ badFinalCount s.dir s.pad ic.toNat = false ∧
      admits s.platform .read ia.toNat ic.toNat = true ∧
      ((admits s.platform .write oa.toNat n = false ∧
          execFinal ia ic oa s = .fault (.stuckWrite oa.toNat n)) ∨
        (admits s.platform .write oa.toNat n = true ∧ r.1 = none ∧
          execFinal ia ic oa s = .next (r.2.raise .padding)) ∨
        ∃ out, r.1 = some out ∧ n = out.length ∧ admits s.platform .write oa.toNat out.length = true ∧
          execFinal ia ic oa s = .next (r.2.closeMessage.deliver oa.toNat out))) := by
  unfold execFinal
  by_cases hp : s.phase = .ready
  · cases hb : badFinalCount s.dir s.pad ic.toNat
    · cases ha : admits s.platform .read ia.toNat ic.toNat
      · simp [hp, State.memRead, ha]
      · refine .inr (.inr (.inr ⟨_, _, _, rfl, rfl, rfl, hp, rfl, rfl, ?_⟩))
        cases ho : (finalOutput (s.mem.readBytes ia.toNat ic.toNat) s).1 <;>
          cases hw : admits s.platform .write oa.toNat
            (outputLength (s.mem.readBytes ia.toNat ic.toNat) s) <;>
          simp [hp, State.memRead, ha, State.reserve, hw, ho]
        rw [outputLength, ho] at hw
        exact ⟨by simp [outputLength, ho], hw⟩
    · simp [hp]
  · simp [hp]

/-- The length of FINAL's output range where the padding is rejected: the tail less 0 to 16 bytes
(R138, assumption 9). -/
theorem outputLength_rejected {m : List Byte} {s : State} (h : (finalOutput m s).1 = none) :
    ∃ k, k ≤ 16 ∧ outputLength m s = (fullTail m s).length - k :=
  ⟨(Config.rejectedStrip s.draws).val, by omega, by rw [outputLength, h]⟩

/-- FINAL on a rejected tail, where its output range is admitted whatever its length (R137). -/
theorem execFinal_rejected {ia ic oa : Word} {s : State} (hp : s.phase = .ready)
    (hb : badFinalCount s.dir s.pad ic.toNat = false)
    (ha : admits s.platform .read ia.toNat ic.toNat = true)
    (hn : (finalOutput (s.mem.readBytes ia.toNat ic.toNat) s).1 = none)
    (hw : ∀ k, k ≤ 16 → admits s.platform .write oa.toNat
      ((fullTail (s.mem.readBytes ia.toNat ic.toNat) s).length - k) = true) :
    execFinal ia ic oa s =
      .next ((finalOutput (s.mem.readBytes ia.toNat ic.toNat) s).2.raise .padding) := by
  obtain ⟨k, hk, hl⟩ := outputLength_rejected hn
  simp [execFinal, hp, hb, State.memRead, ha, State.reserve, hl, hw k hk, hn]

/-! The next states, and where each comes from. -/

/-- The next states of LOAD (R111, R135). -/
theorem exec_load_next {dir : Direction} {mode pad : BitVec 3} {ka kl va vl : Word} {s t : State}
    (h : exec (.load dir mode pad ka kl va vl) s = .next t) :
    (ConfigurationFault mode pad kl vl ∧ t = s.discard.raise .configuration) ∨
    (¬ConfigurationFault mode pad kl vl ∧ ∃ m p k iv,
      loadConfiguration mode pad kl vl = some (m, p) ∧ (m = .ecb → iv = Block.zero) ∧
      t = (s.discard.build dir m p k iv).respond .ok 0) := by
  change execLoad _ _ _ _ _ _ _ _ = _ at h
  rcases execLoad_cases dir mode pad ka kl va vl s with
    ⟨h1, h2⟩ | ⟨m, p, _, _, h2⟩ | ⟨p, _, _, _, h2⟩ | ⟨m, p, iv, h1, _, h3, h2⟩
  · rw [h] at h2; cases h2
    exact .inl ⟨loadConfiguration_eq_none.1 h1, rfl⟩
  · rw [h] at h2; cases h2
  · rw [h] at h2; cases h2
  · rw [h] at h2; cases h2
    refine .inr ⟨fun hc => ?_, m, p, _, _, h1, fun hm => ?_, rfl⟩
    · rw [loadConfiguration_eq_none.2 hc] at h1; cases h1
    · rcases h3 with ⟨_, rfl⟩ | ⟨h, _⟩
      · decide
      · rw [hm] at h; cases h

/-- The next states of BLOCK (R112, R136). -/
theorem exec_block_next {ia ic oa : Word} {s t : State} (h : exec (.block ia ic oa) s = .next t) :
    (s.phase ≠ .ready ∧ t = s.raise .usageRefused) ∨
    (s.phase = .ready ∧ BlockCountFault ic.toNat ∧ t = s.raise .usageInMessage) ∨
    (∃ r, r = blockOutput (s.mem.readBytes ia.toNat ic.toNat) s ∧
      s.phase = .ready ∧ ¬BlockCountFault ic.toNat ∧
      admits s.platform .read ia.toNat ic.toNat = true ∧
      admits s.platform .write oa.toNat r.1.length = true ∧ t = r.2.deliver oa.toNat r.1) := by
  change execBlock _ _ _ _ = _ at h
  rcases execBlock_cases ia ic oa s with
    ⟨h1, h2⟩ | ⟨h1, h3, h2⟩ | ⟨h1, h3, h4, h2⟩ | ⟨r, hr, h1, h3, h4, h2⟩ <;> rw [h] at h2
  · cases h2; exact .inl ⟨h1, rfl⟩
  · cases h2; exact .inr (.inl ⟨h1, badBlockCount_iff.1 h3, rfl⟩)
  · cases h2
  · split at h2 <;> cases h2
    next hw => exact .inr (.inr ⟨r, hr, h1, by rw [← badBlockCount_iff]; simp [h3], h4, hw, rfl⟩)

/-- The next states of FINAL (R113, R136, R137). -/
theorem exec_final_next {ia ic oa : Word} {s t : State} (h : exec (.final ia ic oa) s = .next t) :
    (s.phase ≠ .ready ∧ t = s.raise .usageRefused) ∨
    (s.phase = .ready ∧ FinalCountFault s ic.toNat ∧ t = s.raise .usageInMessage) ∨
    (∃ r, r = finalOutput (s.mem.readBytes ia.toNat ic.toNat) s ∧
      s.phase = .ready ∧ ¬FinalCountFault s ic.toNat ∧
      admits s.platform .read ia.toNat ic.toNat = true ∧
      ((r.1 = none ∧ t = r.2.raise .padding) ∨
        ∃ out, r.1 = some out ∧ admits s.platform .write oa.toNat out.length = true ∧
          t = r.2.closeMessage.deliver oa.toNat out)) := by
  change execFinal _ _ _ _ = _ at h
  rcases execFinal_cases ia ic oa s with
    ⟨h1, h2⟩ | ⟨h1, h3, h2⟩ | ⟨h1, h3, h4, h2⟩ |
      ⟨m, n, r, rfl, hn, hr, h1, h3, h4, ⟨h5, h2⟩ | ⟨h5, h6, h2⟩ | ⟨out, h5, _, h7, h2⟩⟩ <;>
    rw [h] at h2 <;> cases h2
  · exact .inl ⟨h1, rfl⟩
  · exact .inr (.inl ⟨h1, badFinalCount_iff.1 h3, rfl⟩)
  · exact .inr (.inr ⟨r, hr, h1, by rw [← badFinalCount_iff]; simp [h3], h4, .inl ⟨h6, rfl⟩⟩)
  · exact .inr (.inr ⟨r, hr, h1, by rw [← badFinalCount_iff]; simp [h3], h4,
      .inr ⟨out, h5, h7, rfl⟩⟩)

/-- A command is illegal, or it is its decoded instruction (R45, R55). -/
theorem runCommand_cases (d : Descriptor) (s : State) :
    (∃ e, decode d = .error e ∧ runCommand d s = .next (s.raise .usageRefused)) ∨
    ∃ i, decode d = .ok i ∧ runCommand d s = exec i s := by
  unfold runCommand; cases h : decode d <;> simp

/-- The length of the tail of a message on decrypt: a withheld block, and the whole blocks left. -/
theorem length_fullTail (m : List Byte) (s : State) :
    (fullTail m s).length = (if s.hasWb then 16 else 0) + 16 * (m.length / 16) := by
  unfold fullTail State.withheld
  rw [List.length_append, State.runChain_out, length_chain]
  split <;> simp

/-- FINAL finds no output only on decrypt with padding, for no block or a rejected one (R133). -/
theorem finalOutput_eq_none {m : List Byte} {s : State} (h : (finalOutput m s).1 = none) :
    s.dir = .decrypt ∧ s.pad ≠ .none ∧
      (fullTail m s = [] ∨
        (fullTail m s ≠ [] ∧ validate s.pad (lastBlock (fullTail m s)) = none)) := by
  unfold finalOutput at h
  split at h
  · cases h
  · next hp =>
    split at h
    · cases h
    · next hd =>
      refine ⟨hd, hp, ?_⟩
      simp only [decryptFinal] at h
      by_cases hf : fullTail m s = []
      · exact .inl hf
      · rw [if_neg hf, Option.map_eq_none_iff] at h
        exact .inr ⟨hf, h⟩

end Sys2Proof.Machine
end

