-- ==== Sys2Proof/Laws/PerInstr.lean ====
section
/-! SUPPORT. Facts of every command as syntax: the command word of its descriptor has the match and
mask of its row of spec/opcode_table.json (R48). -/

namespace Sys2Proof.Laws.TableRow

/-- The mask of the command's row. -/
def mask : Instr → Word
  | .load _ _ _ _ _ _ _ => 0xffff80ff
  | .block _ _ _ => 0xffffffff
  | .final _ _ _ => 0xffffffff

/-- The match of the command's row. -/
def value : Instr → Word
  | .load _ _ _ _ _ _ _ => 0x00000001
  | .block _ _ _ => 0x00000002
  | .final _ _ _ => 0x00000003

/-- The command word has the row's match under the row's mask. -/
def Statement (i : Instr) : Prop := (encode i).w0 &&& mask i = value i

theorem load (dir : Direction) (mode pad : BitVec 3) (keyAddr keyLen ivAddr ivLen : Word) :
    Statement (.load dir mode pad keyAddr keyLen ivAddr ivLen) := by
  show loadWord dir mode pad &&& 0xffff80ff = 0x00000001
  cases dir <;> revert mode pad <;> decide

theorem block (inAddr inCount outAddr : Word) : Statement (.block inAddr inCount outAddr) := by
  show (0x00000002 : Word) &&& 0xffffffff = 0x00000002
  decide

theorem final (inAddr inCount outAddr : Word) : Statement (.final inAddr inCount outAddr) := by
  show (0x00000003 : Word) &&& 0xffffffff = 0x00000003
  decide

end Sys2Proof.Laws.TableRow
end

