-- ==== Sys2Proof/WellFormed.lean ====
section
/-! DEFINITION. The one check rule R47 puts on a command beyond the widths of its fields (which the
types of `Instr` already fix): an address operand is below 2^ADDR_BITS. -/

namespace Sys2Proof

/-- An address operand lies in the address space of `addrBits` bits (R47). -/
def addressFits (addrBits : Nat) (a : Word) : Bool := decide (a.toNat < 2 ^ addrBits)

/-- R47: every address operand of the command is below 2^ADDR_BITS. With the default of 32 bits
every command is well formed. -/
def Instr.wellFormed (addrBits : Nat) : Instr → Bool
  | .load _ _ _ keyAddr _ ivAddr _ => addressFits addrBits keyAddr && addressFits addrBits ivAddr
  | .block inAddr _ outAddr => addressFits addrBits inAddr && addressFits addrBits outAddr
  | .final inAddr _ outAddr => addressFits addrBits inAddr && addressFits addrBits outAddr

end Sys2Proof
end

