-- ==== Sys2Proof/Tests/Slice0.lean ====
section
/-! SUPPORT. Tests of the model against the spec's own examples and vectors (95_test_vectors.md), and,
for every statement that has hypotheses, a concrete state and operands that meet all of them. -/

namespace Sys2Proof.Tests

open Sys2Proof.Machine Sys2Proof.Safety

/-! Helpers. -/

/-- The `n` bytes of a number, most significant first, as the spec prints byte strings. -/
def hex (n v : Nat) : List Byte := (List.range n).map fun i => BitVec.ofNat 8 (v / 256 ^ (n - 1 - i))

/-- A block as the spec prints it. -/
def blk (v : Nat) : Block := blockOfBytes (hex 16 v)

/-- Memory holding the given strings. -/
def memory (l : List (Nat × List Byte)) : Memory := l.foldl (fun m c => m.writeBytes c.1 c.2) []

/-- KEY of 95_test_vectors.md. -/
def key : Nat := 0x0123456789abcdeffedcba9876543210

/-- IVEC of 95_test_vectors.md. -/
def ivec : Nat := 0x000102030405060708090a0b0c0d0e0f

/-- CT48 of 95_test_vectors.md section 2.4. -/
def ct48 : List Byte :=
  hex 16 0x36aaca68e9ee16652f05037b0dbe7296 ++ hex 16 0xefaca536bea652ba6018a6138c6f2500 ++
    hex 16 0x2426cb29fab75d1320fb09a541679c63

/-- Reset with KEY at 0x1000, IVEC at 0x1010, and the given bytes at 0x2000. -/
def placed (input : List Byte) : State :=
  { State.reset with mem := memory [(0x1000, hex 16 key), (0x1010, hex 16 ivec), (0x2000, input)] }

/-- READY under KEY (and IVEC in CBC mode), with the given bytes at 0x2000. -/
def ready (dir : Direction) (mode : Mode) (pad : Padding) (input : List Byte) : State :=
  let iv := if mode = .cbc then blk ivec else Block.zero
  { placed input with
    phase := .ready, dir := dir, mode := mode, pad := pad, rk := keySchedule (blk key) dir,
    iv := iv, lb := iv }

/-- The outcome is a next state of which `p` holds. -/
def after (o : Host.Outcome State Fault Refusal) (p : State → Bool) : Bool :=
  match o with
  | .next t => p t
  | _ => false

theorem exists_next {o : Host.Outcome State Fault Refusal} {p : State → Prop} [DecidablePred p]
    (h : after o (fun t => decide (p t)) = true) : ∃ t, o = .next t ∧ p t := by
  cases o with
  | next t => exact ⟨t, rfl, by simpa [after] using h⟩
  | fault f => cases h
  | refused r => cases h

/-- FINAL on a rejected tail, with what the next state shows: the length of its output range is a free
value, so the range is asked for at each length. -/
theorem exists_rejected {ia ic oa : Word} {s : State} {p : State → Prop} [DecidablePred p]
    (h : (decide (s.phase = .ready) && !badFinalCount s.dir s.pad ic.toNat &&
      admits s.platform .read ia.toNat ic.toNat &&
      (finalOutput (s.mem.readBytes ia.toNat ic.toNat) s).1.isNone &&
      ((List.range 17).all fun k => admits s.platform .write oa.toNat
        ((fullTail (s.mem.readBytes ia.toNat ic.toNat) s).length - k)) &&
      decide (p ((finalOutput (s.mem.readBytes ia.toNat ic.toNat) s).2.raise .padding))) = true) :
    ∃ t, exec (.final ia ic oa) s = .next t ∧ p t := by
  simp only [Bool.and_eq_true, decide_eq_true_eq, Bool.not_eq_true', Option.isNone_iff_eq_none,
    List.all_eq_true, List.mem_range] at h
  obtain ⟨⟨⟨⟨⟨h1, h2⟩, h3⟩, h4⟩, h5⟩, h6⟩ := h
  exact ⟨_, execFinal_rejected h1 h2 h3 h4 fun k hk => h5 k (by omega), h6⟩

/-- The reading of the response and of `n` bytes at `addr`. -/
def gives (status : Status) (count addr : Nat) (out : List Byte) (t : State) : Bool :=
  decide (t.status = status) && decide (t.count.toNat = count) &&
    decide (t.mem.readBytes addr out.length = out)

/-! Well-formedness (R47), on a platform of 16 address bits. -/

theorem test_wellFormed_load_key : Instr.wellFormed 16 (.load .encrypt 0 0 0x10000 16 0 0) = false := by
  decide
theorem test_wellFormed_load_iv : Instr.wellFormed 16 (.load .encrypt 1 0 0 16 0x10000 16) = false := by
  decide
theorem test_wellFormed_block_in : Instr.wellFormed 16 (.block 0x10000 0 0) = false := by decide
theorem test_wellFormed_block_out : Instr.wellFormed 16 (.block 0 0 0x10000) = false := by decide
theorem test_wellFormed_final_in : Instr.wellFormed 16 (.final 0x10000 0 0) = false := by decide
theorem test_wellFormed_final_out : Instr.wellFormed 16 (.final 0 0 0x10000) = false := by decide
theorem test_wellFormed_ok :
    Instr.wellFormed 16 (.load .decrypt 7 7 0xffff 0xffffffff 0xffff 0xffffffff) = true ∧
      Instr.wellFormed 32 (.block 0xffffffff 0xffffffff 0xffffffff) = true := by decide

/-! Decoding: words written out bit by bit from R46, as RSV(17) PAD(3) MODE(3) DIR(1) OP(8). -/

/-- V60: `LOAD DEC, CBC, PKCS7`, with the operands of R58's example. -/
theorem test_decode_load :
    decode ⟨0b00000000000000000_001_001_1_00000001, 0x00001000, 16, 0x00001010, 16⟩ =
      .ok (.load .decrypt 1 1 0x1000 16 0x1010 16) := by decide
/-- V60: `LOAD ENC, CBC, ZEROS` and `LOAD ENC, ECB, ANSIX923`. -/
theorem test_decode_load_fields :
    decode ⟨0b00000000000000000_100_001_0_00000001, 1, 2, 3, 4⟩ = .ok (.load .encrypt 1 4 1 2 3 4) ∧
      decode ⟨0b00000000000000000_010_000_0_00000001, 1, 2, 3, 4⟩ =
        .ok (.load .encrypt 0 2 1 2 3 4) := by decide
/-- R50, R51: unsupported codes decode as LOAD. -/
theorem test_decode_load_unsupported :
    decode ⟨0b00000000000000000_111_111_1_00000001, 1, 2, 3, 4⟩ =
      .ok (.load .decrypt 7 7 1 2 3 4) := by decide
theorem test_decode_block :
    decode ⟨0b00000000000000000_000_000_0_00000010, 1, 2, 3, 0xffffffff⟩ = .ok (.block 1 2 3) := by
  decide
theorem test_decode_final :
    decode ⟨0b00000000000000000_000_000_0_00000011, 1, 2, 3, 0xffffffff⟩ = .ok (.final 1 2 3) := by
  decide
/-- R55: the three causes, each at its lowest and highest bit. -/
theorem test_decode_illegal :
    decode ⟨0, 0, 0, 0, 0⟩ = .error .unknownOp ∧
      decode ⟨0b00000000000000000_000_000_0_11111111, 0, 0, 0, 0⟩ = .error .unknownOp ∧
      decode ⟨0b00000000000000001_000_000_0_00000001, 0, 0, 0, 0⟩ = .error .reservedBits ∧
      decode ⟨0b10000000000000000_000_000_0_00000011, 0, 0, 0, 0⟩ = .error .reservedBits ∧
      decode ⟨0b00000000000000000_000_000_1_00000010, 0, 0, 0, 0⟩ = .error .configurationBits ∧
      decode ⟨0b00000000000000000_100_000_0_00000011, 0, 0, 0, 0⟩ = .error .configurationBits := by
  decide

/-- R58's example, as text and as words. -/
theorem test_text :
    Instr.text (.load .decrypt 1 1 0x1000 16 0x1010 16) =
        "LOAD DEC, CBC, PKCS7, key=@4096:16, iv=@4112:16" ∧
      encode (.load .decrypt 1 1 0x1000 16 0x1010 16) =
        ⟨0x00001301, 0x00001000, 16, 0x00001010, 16⟩ := by decide +kernel

/-- The three rows of the opcode table, from the table's own words. -/
theorem test_table_rows :
    decodeTableWord 32 0x00000001 = some (.load .encrypt 0 0 0 0 0 0) ∧
      decodeTableWord 32 0x00000002 = some (.block 0 0 0) ∧
      decodeTableWord 32 0x00000003 = some (.final 0 0 0) := by decide

/-- The three rows as the first command after reset: a key of 0 bytes, then no pipeline (R111, R116). -/
theorem test_first_command :
    after (step (State.reset.withFetchWord 32 1)) (gives .configurationError 0 0 []) = true ∧
      after (step (State.reset.withFetchWord 32 2)) (gives .usageError 0 0 []) = true ∧
      after (step (State.reset.withFetchWord 32 3)) (gives .usageError 0 0 []) = true := by
  decide +kernel

/-! The SM4 core (R64 to R72, V4 to V12). -/

/-- V4 to V9. -/
theorem test_round_functions :
    rotl 0x80000001 1 = 0x00000003 ∧ rotl 0x12345678 13 = 0x8acf0246 ∧
      tau 0x12345678 = 0x9ac9da4c ∧ tau 0x71717171 = 0 ∧ mapT 0x80000000 = 0x9767abab ∧
      mapTp 0x12345678 = 0x87cd2df8 := by decide +kernel

/-- V10, V12: first, middle and last round keys. -/
theorem test_key_schedule :
    (keyExpand (blk key))[0] = 0xf12186f9 ∧ (keyExpand (blk key))[15] = 0x104495a1 ∧
      (keySchedule (blk key) .decrypt)[0] = 0x9124a012 ∧
      (keySchedule (blk key) .decrypt)[31] = 0xf12186f9 ∧
      (keyExpand Block.zero)[31] = 0xa16ca108 := by decide +kernel

/-- V3, and the in-place form of R72 on V12's corner blocks. -/
theorem test_block_transform :
    blockTransform (keyExpand (blk 0xfedcba98765432100123456789abcdef)) (blk ivec) =
        blk 0xf766678f13f01adeac1b3ea955adb594 ∧
      blockTransformInPlace (keyExpand Block.zero) Block.zero =
        blk 0x9f1f7bff6f5511384d9430531e538fd3 := by decide +kernel

/-! Padding (V30, V34). -/

/-- V30 with the draw `d`. -/
theorem test_pad_bytes :
    padBytes .pkcs7 13 [] = hex 13 0x0d0d0d0d0d0d0d0d0d0d0d0d0d ∧
      padBytes .ansix923 15 [] = hex 15 0x0f ∧
      padBytes .iso10126 13 (hex 15 0xa1b2c3d4e5f60718293a4b5c6d7e8f) =
        hex 13 0xa1b2c3d4e5f60718293a4b5c0d ∧
      padBytes .iso10126 1 (hex 15 0xa1b2c3d4e5f60718293a4b5c6d7e8f) = hex 1 0x01 ∧
      padBytes .zeros 16 [] = hex 16 0 := by decide +kernel

/-- V34, rows 2, 3, 4, 5 and 7. -/
theorem test_validate :
    validate .iso10126 (blk 0x11111111111111111111111111111111) = none ∧
      validate .pkcs7 (blk 0x10101010101010101010101010101010) = some 16 ∧
      validate .ansix923 (blk 0x10101010101010101010101010101010) = none ∧
      validate .pkcs7 (blk 0x00000000000000000000000009040404) = none ∧
      validate .iso10126 (blk 0x00000000000000000000000009040404) = some 4 ∧
      validate .ansix923 (blk 0x00000000000000000000000000070004) = none ∧
      validate .pkcs7 (blk 0xaaaaaaaaaaaaaaaaaaaaaaaaaaaaaa01) = some 1 ∧
      validate .zeros Block.zero = some 16 := by decide +kernel

/-! The three commands, one step each. -/

/-- P3, command 1. -/
theorem test_load_decrypt :
    after (step { placed [] with host := [.command ⟨0x00001301, 0x1000, 16, 0x1010, 16⟩] })
      (fun t => gives .ok 0 0x2000 (hex 1 0) t && decide (t.phase = .ready ∧ t.dir = .decrypt ∧
        t.mode = .cbc ∧ t.pad = .pkcs7 ∧ t.rk[0] = 0x9124a012 ∧ t.rk[31] = 0xf12186f9 ∧
        t.iv = blk ivec ∧ t.lb = blk ivec ∧ t.hasWb = false)) = true := by decide +kernel

/-- V53: an IV of 8 bytes is an error in CBC mode and is ignored in ECB mode. -/
theorem test_load_iv_length :
    after (exec (.load .encrypt 1 1 0x1000 16 0x1010 8) (placed []))
        (fun t => decide (t.status = .configurationError ∧ t.phase = .unbuilt)) = true ∧
      after (exec (.load .encrypt 0 1 0x1000 16 0x1010 8) (placed []))
        (fun t => decide (t.status = .ok ∧ t.phase = .ready ∧ t.iv = Block.zero)) = true := by
  decide +kernel

/-- V21, with the output put over the input from its second block on (R36). -/
theorem test_block_cbc_overlap :
    after (exec (.block 0x2000 32 0x2010)
        (ready .encrypt .cbc .none (hex 16 key ++ hex 16 key)))
      (fun t => gives .ok 32 0x2010 (hex 16 0xa9a268883a336315bac0c9c9ff350ab1 ++
          hex 16 0xb236a4a85616d4aabf0a83555c7d4115) t &&
        decide (t.lb = blk 0xb236a4a85616d4aabf0a83555c7d4115)) = true := by decide +kernel

/-- V41, second command: the withheld block goes out first, and the new last block is held back. -/
theorem test_block_withholds :
    after (exec (.block 0x2010 32 0x5000)
        { ready .decrypt .cbc .pkcs7 ct48 with
          lb := blk 0x36aaca68e9ee16652f05037b0dbe7296,
          wb := blk 0x404142434445464748494a4b4c4d4e4f, hasWb := true })
      (fun t => gives .ok 32 0x5000 (hex 16 0x404142434445464748494a4b4c4d4e4f ++
          hex 16 0x505152535455565758595a5b5c5d5e5f) t &&
        decide (t.wb = blk 0x60616263646566670808080808080808 ∧ t.hasWb = true ∧
          t.lb = blk 0x2426cb29fab75d1320fb09a541679c63)) = true := by decide +kernel

/-- R113's example: ECB, PKCS7 on the three bytes of "abc". -/
theorem test_final_encrypt :
    after (exec (.final 0x2000 3 0x3000) (ready .encrypt .ecb .pkcs7 (hex 3 0x616263)))
      (gives .ok 16 0x3000 (hex 16 0x1055435b9ece612344f8e10016c4943b)) = true := by decide +kernel

/-- V42, last command, and V34 row 1 under PKCS7: nothing is written and the message has failed. -/
theorem test_final_decrypt :
    after (exec (.final 0x2020 16 0x5010)
          { ready .decrypt .cbc .pkcs7 ct48 with
            lb := blk 0xefaca536bea652ba6018a6138c6f2500,
            wb := blk 0x505152535455565758595a5b5c5d5e5f, hasWb := true })
        (fun t => gives .ok 24 0x5010 (hex 16 0x505152535455565758595a5b5c5d5e5f ++
          hex 8 0x6061626364656667) t && decide (t.lb = blk ivec ∧ t.hasWb = false)) = true ∧
      ∃ t, exec (.final 0x2000 16 0x2000)
          (ready .decrypt .ecb .pkcs7 (hex 16 0x2677f46b09c122cc975533105bd4a22a)) = .next t ∧
        gives .paddingValidationError 0 0x2000 (hex 16 0x2677f46b09c122cc975533105bd4a22a) t = true ∧
        t.phase = .failed :=
  ⟨by decide +kernel, exists_rejected (by decide +kernel)⟩

/-! Witnesses: for each statement of Certificates/Slice0/Obligations.lean that has hypotheses, a state
and operands that meet all of them together, at the edges of their ranges where they have any. -/

/-- OperandsAreWholeWordsAndSlices. -/
theorem witness_operands :
    (∃ d i, decode d = .ok i ∧ i = .load .decrypt 7 7 0 0xffffffff 0 0xffffffff) ∧
      (∃ d i, decode d = .ok i ∧ i = .block 0 0xffffffff 0xffffffff) ∧
      ∃ d i, decode d = .ok i ∧ i = .final 0xffffffff 0 0 :=
  ⟨⟨⟨0x00007f01, 0, 0xffffffff, 0, 0xffffffff⟩, _, rfl, by decide⟩,
    ⟨⟨0x00000002, 0, 0xffffffff, 0xffffffff, 0⟩, _, rfl, by decide⟩,
    ⟨⟨0x00000003, 0xffffffff, 0, 0, 9⟩, _, rfl, by decide⟩⟩

/-- StepRunsTheDecodedCommand: both kinds of event, the second with either status. -/
theorem witness_step :
    decode ⟨3, 0, 0, 0, 0⟩ = .ok (.final 0 0 0) ∧
      (State.reset.withFetchWord 32 3).host = .command ⟨3, 0, 0, 0, 0⟩ :: [] ∧
      ({ State.reset with host := [.commandIfOk ⟨3, 0, 0, 0, 0⟩] } : State).status = .ok ∧
      ({ State.reset with status := .usageError, host := [.commandIfOk ⟨3, 0, 0, 0, 0⟩] } : State).host =
        .commandIfOk ⟨3, 0, 0, 0, 0⟩ :: [] := by decide

/-- IllegalCommandOnlyResponds: each cause of R55. -/
theorem witness_illegal :
    (∃ s : State, s.host = .command ⟨0x00000004, 0, 0, 0, 0⟩ :: []) ∧ IllegalWord 0x00000004 ∧
      IllegalWord 0x00000000 ∧ IllegalWord 0x00008001 ∧ IllegalWord 0x80000003 ∧
      IllegalWord 0x00000102 ∧ IllegalWord 0x00004003 ∧ ¬IllegalWord 0x00007f01 :=
  ⟨⟨{ State.reset with host := [.command ⟨4, 0, 0, 0, 0⟩] }, rfl⟩, by
    unfold IllegalWord
    exact ⟨by decide, by decide, by decide, by decide, by decide, by decide, by decide⟩⟩

/-- ResetAtAnyTime. -/
theorem witness_reset :
    (∃ s : State, s.phase = .failed ∧ s.host = .reset :: []) ∧
      ∃ (s : State) (d : Descriptor), s.phase = .ready ∧ s.host = .resetDuring d :: [] ∧
        ∃ t, runCommand d s = .next t ∧ t.mem ≠ s.mem :=
  ⟨⟨{ State.reset with phase := .failed, host := [.reset] }, rfl, rfl⟩,
    ⟨{ ready .encrypt .ecb .none (hex 16 key) with host := [.resetDuring ⟨3, 0x2000, 16, 0x3000, 0⟩] },
      ⟨3, 0x2000, 16, 0x3000, 0⟩, rfl, rfl, exists_next (by decide +kernel)⟩⟩

/-- LoadWithABadConfigurationClearsTheEngine: each of the four causes, at its edge. -/
theorem witness_bad_configuration :
    ConfigurationFault 0 0 15 16 ∧ ConfigurationFault 0 0 17 16 ∧ ConfigurationFault 1 0 16 0 ∧
      ConfigurationFault 1 0 16 17 ∧ ConfigurationFault 2 0 16 16 ∧ ConfigurationFault 7 0 16 16 ∧
      ConfigurationFault 0 5 16 16 ∧ ConfigurationFault 1 7 16 16 ∧ ¬ConfigurationFault 0 4 16 0 := by
  unfold ConfigurationFault; decide

/-- ConfigurationErrorComesOnlyFromLoad, ErrorsWriteNothing and the second row of PhaseMachine. -/
theorem witness_configuration_error :
    ∃ t, runCommand ⟨0x00000201, 0x1000, 15, 0x1010, 16⟩ (ready .decrypt .cbc .pkcs7 []) = .next t ∧
      t.status = .configurationError := exists_next (by decide +kernel)

/-- LoadBuildsThePipeline: in both modes, with key and IV at the top of the address space. -/
theorem witness_load :
    admits State.reset.platform .read (0xfffffff0 : Word).toNat 16 = true ∧
      (Mode.cbc = .cbc → (16 : Word).toNat = 16 ∧
        admits State.reset.platform .read (0xfffffff0 : Word).toNat 16 = true) ∧
      (Mode.ecb = .cbc → (0 : Word).toNat = 16 ∧
        admits State.reset.platform .read (0xfffffff1 : Word).toNat 16 = true) := by decide

/-- UsageErrorEntry: a bad count in READY for BLOCK and for FINAL, a phase that is not READY, and an
illegal word. -/
theorem witness_usage_error :
    (ready .decrypt .cbc .pkcs7 []).phase = .ready ∧ BlockCountFault 15 ∧
      BlockCountFault (2 ^ 32 - 16) ∧ FinalCountFault (ready .decrypt .cbc .pkcs7 []) 1 ∧
      FinalCountFault (ready .encrypt .cbc .none []) 17 ∧
      FinalCountFault (ready .encrypt .cbc .pkcs7 []) (2 ^ 32 - 16) ∧
      ¬FinalCountFault (ready .encrypt .cbc .pkcs7 []) (2 ^ 32 - 17) ∧ State.reset.phase ≠ .ready ∧
      IllegalWord 0x00000102 := by
  unfold BlockCountFault FinalCountFault IllegalWord; decide +kernel

/-- UsageErrorExactlyForItsCauses, PhaseMachine and ErrorsWriteNothing: a next state for each row. -/
theorem witness_command_rows :
    (∃ t, runCommand ⟨4, 0, 0, 0, 0⟩ (ready .decrypt .cbc .pkcs7 []) = .next t ∧
        t.status = .usageError) ∧
      (∃ t, runCommand ⟨0x00000001, 0x1000, 16, 0, 0⟩ State.reset = .next t ∧ t.status = .ok) ∧
      (∃ t, runCommand ⟨2, 0, 16, 0, 0⟩ State.reset = .next t ∧ t.status = .usageError) ∧
      (∃ t, runCommand ⟨2, 0, 15, 0, 0⟩ (ready .decrypt .cbc .pkcs7 []) = .next t ∧
        t.phase = .failed) ∧
      (∃ t, runCommand ⟨2, 0x2000, 16, 0x3000, 0⟩ (ready .encrypt .cbc .none (hex 16 key)) = .next t ∧
        t.status = .ok) ∧
      (∃ t, runCommand ⟨3, 0, 5, 0, 0⟩ (ready .encrypt .cbc .none []) = .next t ∧ t.phase = .failed) ∧
      ∃ t, runCommand ⟨3, 0, 0, 0, 0⟩ (ready .encrypt .cbc .none []) = .next t ∧ t.status = .ok :=
  ⟨exists_next (by decide +kernel), exists_next (by decide +kernel), exists_next (by decide +kernel),
    exists_next (by decide +kernel), exists_next (by decide +kernel), exists_next (by decide +kernel),
    exists_next (by decide +kernel)⟩

/-- PaddingErrorOnlyForItsCauses and PaddingErrorEntry: no block (V35), and two different rejected
blocks (V34 rows 1 and 2). -/
theorem witness_padding_error :
    (∃ t, runCommand ⟨3, 0x2000, 0, 0x3000, 0⟩ (ready .decrypt .cbc .zeros []) = .next t ∧
        t.status = .paddingValidationError) ∧
      (∃ t, exec (.final 0x2000 16 0x3000)
          (ready .decrypt .ecb .pkcs7 (hex 16 0x2677f46b09c122cc975533105bd4a22a)) = .next t ∧
        t.status = .paddingValidationError) ∧
      ∃ u, exec (.final 0x2000 16 0x3000)
          { ready .decrypt .ecb .pkcs7 (hex 16 0x2677f46b09c122cc975533105bd4a22a) with
            mem := memory [(0x2000, hex 16 0x6b3633a5ed04f5abd5197870b5506642)] } = .next u ∧
        u.status = .paddingValidationError :=
  ⟨exists_rejected (by decide +kernel), exists_rejected (by decide +kernel),
    exists_rejected (by decide +kernel)⟩

/-- FinalRejectsInvalidPadding: both clauses, the second with the output at the top of the address
space. -/
theorem witness_rejects :
    (let s := ready .decrypt .cbc .zeros [];
      s.phase = .ready ∧ s.dir = .decrypt ∧ s.pad ≠ .none ∧ ¬FinalCountFault s 0 ∧
        admits s.platform .read 0 0 = true ∧ s.hasWb = false) ∧
      (let s := ready .decrypt .ecb .ansix923 (hex 16 0x002a8a4efa863ccad024ac0300bb40d2);
        s.phase = .ready ∧ s.dir = .decrypt ∧ s.pad ≠ .none ∧ ¬FinalCountFault s 16 ∧
          admits s.platform .read 0x2000 16 = true ∧
          ∃ full, full = (if s.hasWb = true then s.wb.toList else []) ++
              (chain s.pipeline s.lb (s.mem.readBytes 0x2000 16)).1 ∧
            full ≠ [] ∧ validate s.pad (lastBlock full) = none ∧
            ∀ k, k < 17 → admits s.platform .write 0xfffffff0 (full.length - k) = true) := by
  unfold FinalCountFault
  exact ⟨by decide, ⟨by decide, by decide, by decide, by decide, by decide, _, rfl,
    by decide +kernel⟩⟩

/-- FailedIsLeftOnlyByLoadOrReset: the three ways. -/
theorem witness_leaves_failed :
    let s := { placed [] with phase := .failed, mode := .cbc };
    (∃ t, step { s with host := [.reset] } = .next t ∧ t.phase ≠ .failed) ∧
      (∃ t, step { s with host := [.resetDuring ⟨4, 0, 0, 0, 0⟩] } = .next t ∧ t.phase ≠ .failed) ∧
      (∃ t, step { s with host := [.command ⟨1, 0x1000, 16, 0, 0⟩] } = .next t ∧ t.phase ≠ .failed) ∧
      ∃ t, step { s with host := [.commandIfOk ⟨1, 0, 0, 0, 0⟩] } = .next t ∧ t.phase ≠ .failed :=
  ⟨exists_next (by decide +kernel), exists_next (by decide +kernel), exists_next (by decide +kernel),
    exists_next (by decide +kernel)⟩

/-- UnadmittedRangesAreStuck, LOAD, BLOCK and FINAL on whole blocks and on encrypt: each with a range
that passes the top by one byte. -/
theorem witness_stuck :
    ¬ConfigurationFault 0 0 16 0 ∧ ¬ConfigurationFault 1 0 16 16 ∧
      admits Platform.default .read 0xfffffff1 16 = false ∧
      admits Platform.default .read 0xfffffff0 16 = true ∧
      admits Platform.default .write 0xfffffff1 16 = false ∧
      (ready .encrypt .ecb .pkcs7 []).phase = .ready ∧ ¬BlockCountFault 16 ∧
      ¬FinalCountFault (ready .encrypt .ecb .pkcs7 []) 0 ∧
      (ready .encrypt .ecb .pkcs7 []).dir = .encrypt ∧ (ready .encrypt .ecb .pkcs7 []).pad ≠ .none ∧
      admits Platform.default .read 0 0 = true ∧
      admits Platform.default .write 0xfffffff1 (0 + padLen 0) = false ∧
      ¬FinalCountFault (ready .decrypt .ecb .none []) 16 ∧
      (ready .decrypt .ecb .none []).pad = .none := by
  unfold ConfigurationFault BlockCountFault FinalCountFault; decide +kernel

/-- UnadmittedRangesAreStuck, BLOCK and FINAL on decrypt with padding, on a platform that grants nothing
for writing: a block withheld by BLOCK, an accepted pad (V34 row 7), and a rejected one (row 2). -/
theorem witness_stuck_on_decrypt :
    let s := { ready .decrypt .ecb .pkcs7 (hex 16 0xaf457e57a662dedd3bd2bf8f692c2745 ++
        hex 16 0x6b3633a5ed04f5abd5197870b5506642) with
      wb := blk key, hasWb := true, platform := ⟨32, [.within .read 0 (2 ^ 32)]⟩ };
    let accepted := s.wb.toList ++ (chain s.pipeline s.lb (s.mem.readBytes 0x2000 16)).1;
    let rejected := s.wb.toList ++ (chain s.pipeline s.lb (s.mem.readBytes 0x2010 16)).1;
    (s.phase = .ready ∧ s.dir = .decrypt ∧ s.pad ≠ .none ∧ s.hasWb = true) ∧
      admits s.platform .read 0x2000 16 = true ∧ admits s.platform .read 0x2010 16 = true ∧
      admits s.platform .write 0x3000 (accepted.length - 16) = false ∧
      validate s.pad (lastBlock accepted) = some 1 ∧
      admits s.platform .write 0x3000 (accepted.length - 1) = false ∧
      rejected ≠ [] ∧ validate s.pad (lastBlock rejected) = none ∧
      ∀ k, k < 17 → admits s.platform .write 0x3000 (rejected.length - k) = false := by
  decide +kernel

/-- BlockMovesWholeBlocks: on encrypt with padding, and on decrypt without, at the largest count. -/
theorem witness_block_moves :
    (ready .encrypt .cbc .zeros []).phase = .ready ∧ (ready .encrypt .cbc .zeros []).dir = .encrypt ∧
      (ready .decrypt .cbc .none []).phase = .ready ∧ (ready .decrypt .cbc .none []).pad = .none ∧
      ¬BlockCountFault 0 ∧ ¬BlockCountFault (2 ^ 32 - 32) ∧
      admits Platform.default .read 32 (2 ^ 32 - 32) = true ∧
      admits Platform.default .write 32 (2 ^ 32 - 32) = true := by
  unfold BlockCountFault; decide +kernel

/-- BlockWithholdsOneBlockOnDecrypt: one block with nothing withheld, and with a block withheld. -/
theorem witness_block_withholds :
    ∀ s, s = ready .decrypt .cbc .pkcs7 ct48 ∨
        s = { ready .decrypt .cbc .pkcs7 ct48 with hasWb := true, wb := blk key } →
      s.phase = .ready ∧ ¬BlockCountFault 16 ∧ (16 : Word) ≠ 0 ∧ s.dir = .decrypt ∧ s.pad ≠ .none ∧
        admits s.platform .read 0x2000 16 = true ∧
        ∃ full, full = (if s.hasWb = true then s.wb.toList else []) ++
            (chain s.pipeline s.lb (s.mem.readBytes 0x2000 16)).1 ∧
          admits s.platform .write 0x3000 (full.length - 16) = true := by
  intro s h
  unfold BlockCountFault
  rcases h with rfl | rfl <;>
    exact ⟨by decide, by decide, by decide, by decide, by decide, by decide, _, rfl,
      by decide +kernel⟩

/-- BlockOfNothingChangesNothing, FinalEncryptsThePaddedRest and FinalWithoutPadding, at the least and
the greatest count. -/
theorem witness_final :
    (ready .encrypt .cbc .iso10126 []).phase = .ready ∧
      (ready .encrypt .cbc .iso10126 []).dir = .encrypt ∧
      (ready .encrypt .cbc .iso10126 []).pad ≠ .none ∧ (0xffffffef : Word).toNat ≤ 2 ^ 32 - 17 ∧
      admits Platform.default .read 0 0xffffffef = true ∧
      admits Platform.default .write 0 (0xffffffef + padLen 0xffffffef) = true ∧
      admits Platform.default .write 0xfffffff0 (0 + padLen 0) = true ∧
      (ready .decrypt .ecb .none []).phase = .ready ∧ (ready .decrypt .ecb .none []).pad = .none ∧
      ¬FinalCountFault (ready .decrypt .ecb .none []) 0xffffffe0 ∧
      admits Platform.default .read 0 0xffffffe0 = true ∧
      admits Platform.default .write 0 0xffffffe0 = true := by
  unfold FinalCountFault; decide +kernel

/-- FinalDecryptsAndStrips: a message of one block of padding (V33), and a withheld block with no
input left (V41). -/
theorem witness_final_strips :
    (let s := ready .decrypt .ecb .ansix923 (hex 16 0xf15681bef43b74797c8626d259912b05);
      s.phase = .ready ∧ s.dir = .decrypt ∧ s.pad ≠ .none ∧ ¬FinalCountFault s 16 ∧
        admits s.platform .read 0x2000 16 = true ∧
        ∃ full, full = (if s.hasWb = true then s.wb.toList else []) ++
            (chain s.pipeline s.lb (s.mem.readBytes 0x2000 16)).1 ∧
          full ≠ [] ∧ validate s.pad (lastBlock full) = some 16 ∧
          admits s.platform .write 0x3000 (full.length - 16) = true) ∧
      (let s := { ready .decrypt .cbc .pkcs7 [] with
          hasWb := true, wb := blk 0x60616263646566670808080808080808 };
        s.phase = .ready ∧ s.dir = .decrypt ∧ s.pad ≠ .none ∧ ¬FinalCountFault s 0 ∧
          admits s.platform .read 0x2000 0 = true ∧
          ∃ full, full = (if s.hasWb = true then s.wb.toList else []) ++
              (chain s.pipeline s.lb (s.mem.readBytes 0x2000 0)).1 ∧
            full ≠ [] ∧ validate s.pad (lastBlock full) = some 8 ∧
            admits s.platform .write 0x3000 (full.length - 8) = true) := by
  unfold FinalCountFault
  exact ⟨⟨by decide, by decide, by decide, by decide, by decide, _, rfl, by decide +kernel⟩,
    ⟨by decide, by decide, by decide, by decide, by decide, _, rfl, by decide +kernel⟩⟩

/-- CommandFrames and FinalLeavesTheLoadedState: a LOAD that succeeds, and after it a BLOCK and a FINAL
that succeed. -/
theorem witness_load_then_final :
    ∃ s₁, exec (.load .encrypt 1 1 0x1000 16 0x1010 16) (placed (hex 16 key)) = .next s₁ ∧
      s₁.status = .ok ∧ (∃ t, exec (.block 0x2000 16 0x3000) s₁ = .next t ∧ t.status = .ok) ∧
      ∃ t, exec (.final 0x2000 3 0x3000) s₁ = .next t ∧ t.status = .ok := by
  obtain ⟨s₁, h, h1, h2, h3⟩ := exists_next
    (o := exec (.load .encrypt 1 1 0x1000 16 0x1010 16) (placed (hex 16 key)))
    (p := fun s₁ => s₁.status = .ok ∧
      after (exec (.block 0x2000 16 0x3000) s₁) (fun t => decide (t.status = .ok)) = true ∧
      after (exec (.final 0x2000 3 0x3000) s₁) (fun t => decide (t.status = .ok)) = true)
    (by decide +kernel)
  exact ⟨s₁, h, h1, exists_next h2, exists_next h3⟩

/-- RotationAndLinearMaps, ChainSplitsAtBlockBoundaries, ChainDecryptionInvertsEncryption,
CbcErrorPropagation, PadBytesByScheme, EncodedPadIsAccepted and MemReadAndMemWriteByByte: the edges of
their ranges. -/
theorem witness_functions :
    (0 < 1 ∧ 1 < 32 ∧ 0 < 31 ∧ 31 < 32) ∧ ([] : List Byte).length % 16 = 0 ∧
      ct48.length % 16 = 0 ∧ (0 < [Block.zero].length ∧ blk 1 ≠ [Block.zero][0]) ∧
      (1 ≤ 16 ∧ 16 ≤ 16 ∧ (hex 15 0).length = 15) ∧
      (Padding.iso10126 = .pkcs7 ∨ Padding.iso10126 = .ansix923 ∨ Padding.iso10126 = .iso10126) ∧
      0 < ct48.length := by decide +kernel

/-- StreamingEquivalence: on encrypt with a ragged tail, on decrypt with whole blocks, and on encrypt
with ISO10126, where the draws are equal because nothing was moved before. -/
theorem witness_streaming :
    (let s := ready .encrypt .cbc .pkcs7 [];
      (hex 16 key).length % 16 = 0 ∧
        (s.dir = .decrypt ∨ s.pad = .none → (hex 3 0x616263).length % 16 = 0) ∧
        (s.dir = .encrypt → s.pad = .iso10126 →
          isoDraw (blockOutput (hex 16 key) s).2.draws = isoDraw s.draws)) ∧
      (let s := ready .decrypt .cbc .pkcs7 [];
        ct48.length % 16 = 0 ∧ (s.dir = .decrypt ∨ s.pad = .none → (hex 16 key).length % 16 = 0) ∧
          (s.dir = .encrypt → s.pad = .iso10126 →
            isoDraw (blockOutput ct48 s).2.draws = isoDraw s.draws)) ∧
      (let s := ready .encrypt .cbc .iso10126 [];
        ([] : List Byte).length % 16 = 0 ∧
          (s.dir = .decrypt ∨ s.pad = .none → (hex 3 0x616263).length % 16 = 0) ∧
          (s.dir = .encrypt → s.pad = .iso10126 →
            isoDraw (blockOutput [] s).2.draws = isoDraw s.draws)) := by
  refine ⟨?_, ?_, ?_⟩ <;> intro s
  · exact ⟨by decide +kernel, by decide, fun _ h => by cases h⟩
  · exact ⟨by decide +kernel, by decide +kernel, fun h => by cases h⟩
  · exact ⟨rfl, by decide, fun _ _ => rfl⟩

/-- OneShotIssuesFinalOnlyAfterOk: a LOAD that succeeds, and the operand forms MODE#7 and PAD#5 of R58,
with which it fails. -/
theorem witness_one_shot :
    (∃ s : State, s.host = oneShot .encrypt 7 5 0x1000 16 0 0 0x2000 3 0x3000 ++ []) ∧
      (∃ t, exec (.load .encrypt 0 1 0x1000 16 0 0) (placed []) = .next t ∧ t.status = .ok) ∧
      (∃ t, exec (.load .encrypt 7 0 0x1000 16 0 0) (placed []) = .next t ∧
        t.status = .configurationError) ∧
      ∃ t, exec (.load .decrypt 0 5 0x1000 16 0 0) (placed []) = .next t ∧
        t.status = .configurationError :=
  ⟨⟨{ State.reset with host := _ }, rfl⟩, exists_next (by decide +kernel),
    exists_next (by decide +kernel), exists_next (by decide +kernel)⟩

/-- EncryptThenDecryptReturnsTheMessage: the empty message, and the longest ciphertext DECRYPT accepts,
below a key and an IV at the top of the address space, with PKCS7. -/
theorem witness_round_trip :
    ∀ n : Word, n = 0 ∨ n = 0xffffffdf → ∃ c, c = ciphertextLength .pkcs7 n.toNat ∧
      c ≤ 2 ^ 32 - 17 ∧ ComesBack .pkcs7 (State.reset.mem.readBytes 0 n.toNat) ∧
      admits Platform.default .read 0xffffffe0 16 = true ∧
      admits Platform.default .read 0xfffffff0 16 = true ∧
      admits Platform.default .read 0 n.toNat = true ∧
      admits Platform.default .write 0 c = true ∧ admits Platform.default .read 0 c = true ∧
      admits Platform.default .write 0 n.toNat = true ∧
      (∀ x, InRange 0 c x → ¬InRange 0xffffffe0 16 x ∧ ¬InRange 0xfffffff0 16 x) ∧
      ∃ s : State, s.platform = Platform.default ∧
        s.host = oneShot .encrypt (modeCode .cbc) (paddingCode .pkcs7) 0xffffffe0 16 0xfffffff0 16 0 n 0 ++
          (oneShot .decrypt (modeCode .cbc) (paddingCode .pkcs7) 0xffffffe0 16 0xfffffff0 16 0
            (BitVec.ofNat 32 c) 0 ++ []) := by
  intro n h
  rcases h with rfl | rfl
  · exact ⟨16, by decide, by decide, trivial, by decide, by decide, by decide, by decide, by decide,
      by decide, fun x h => by unfold InRange at *; omega, { State.reset with host := _ }, rfl, rfl⟩
  · exact ⟨0xffffffe0, by decide, by decide, trivial, by decide, by decide, by decide, by decide,
      by decide, by decide, fun x h => by unfold InRange at *; omega,
      { State.reset with host := _ }, rfl, rfl⟩

/-- EncryptThenDecryptReturnsTheMessage: what its clauses ask of the message without padding (the empty
message, whole blocks, and a length that is refused) and with Zeros (V36). -/
theorem witness_comes_back :
    ComesBack .none [] ∧ ComesBack .none ct48 ∧ (5 : Word).toNat % 16 ≠ 0 ∧
      ciphertextLength .none 48 = 48 ∧ ComesBack .zeros (hex 16 0) ∧
      ComesBack .zeros (hex 3 0x616263) ∧ ¬ComesBack .zeros (hex 4 0x61620000) := by
  unfold ComesBack; decide +kernel

/-- StepKeepsTheRegisterInvariants, StepKeepsMemoryCanonical and ScratchIsNeverObserved: a state in the
middle of a message, with a block withheld. -/
theorem witness_step_invariants :
    let s := { ready .decrypt .cbc .pkcs7 ct48 with
      hasWb := true, wb := blk key, host := [.command ⟨2, 0x2000, 32, 0x3000, 0⟩] };
    Safety.Inv s ∧ MemoryInv s ∧ ∃ t, step s = .next t ∧ t.status = .ok := by
  refine ⟨?_, ?_, exists_next (by decide +kernel)⟩
  · unfold Safety.Inv LegalCodes UnbuiltIsZero WithheldOnlyOnDecrypt NoStaleBlock EcbIsUnchained
      FailedIsClosed ErrorCountsZero
    decide +kernel
  · unfold MemoryInv
    decide +kernel

/-- CanonicalMemoryIsItsBytes: two memories written in different orders. -/
theorem witness_canonical :
    let m := (Memory.write [] 5 1).write 3 2
    let m' : Memory := [(3, 2), (5, 1)]
    m.wf = true ∧ m'.wf = true ∧ ∀ a, m.read a = m'.read a :=
  ⟨by decide, by decide, fun _ => rfl⟩

/-- OnlyTheInputRangeIsRead: a memory that agrees on the input alone, for BLOCK and for FINAL. -/
theorem witness_reads :
    let s := ready .encrypt .cbc .pkcs7 (hex 16 key);
    (∀ a, InRange 0x2000 16 a → (memory [(0x2000, hex 16 key)]).read a = s.mem.read a) ∧
      (∃ t, exec (.block 0x2000 16 0x3000) s = .next t ∧ t.status = .ok) ∧
      ∃ t, exec (.final 0x2000 16 0x3000) s = .next t ∧ t.status = .ok := by
  refine ⟨?_, exists_next (by decide +kernel), exists_next (by decide +kernel)⟩
  intro a h
  obtain ⟨h1, h2⟩ := h
  interval_cases a <;> decide +kernel

end Sys2Proof.Tests
end

section
/-! SUPPORT. What a command leaves unchanged (R13, R18, R20, R38): how long its output can be, and
that raising an error and delivering output both keep the configuration and write only the output
range. -/

namespace Sys2Proof.Machine

open Sys2Proof.Safety

/-! How many bytes a command can output (R37, R38). -/

theorem State.length_runChain (s : State) (m : List Byte) :
    (s.runChain m).1.length = 16 * (m.length / 16) := by
  rw [State.runChain_out, length_chain]

theorem State.length_withheld_le (s : State) : s.withheld.length ≤ 16 := by
  unfold State.withheld
  split <;> simp

/-- On whole blocks BLOCK outputs no more than it is given: the block it lets go on decrypt replaces
the one it withholds. -/
theorem length_blockOutput_le {c : List Byte} (s : State) (h : c.length % 16 = 0) :
    (blockOutput c s).1.length ≤ c.length := by
  have hr := s.length_runChain c
  unfold blockOutput decryptBlock
  split
  · by_cases hc : c = []
    · simp [hc]
    · have hw := s.length_withheld_le
      have hpos : 0 < c.length := List.length_pos_iff.2 hc
      simp only [hc, if_false, List.length_append, List.length_take]
      omega
  · omega

theorem length_padBytes_le (pad : Padding) {k : Nat} (draw : List Byte) (hk : 1 ≤ k) :
    (padBytes pad k draw).length ≤ k := by
  cases pad <;> simp [padBytes] <;> omega

theorem length_encryptFinal_le (m : List Byte) (s : State) :
    (encryptFinal m s).1.length ≤ m.length + 16 := by
  have hk : 1 ≤ padLen m.length ∧ padLen m.length ≤ 16 := by unfold padLen; omega
  have hp := length_padBytes_le s.pad (isoDraw s.draws) hk.1
  unfold encryptFinal padded
  rw [State.length_runChain, List.length_append]
  omega

/-- FINAL outputs at most one block more than it is given: the padding on encrypt, the withheld block
on decrypt. -/
theorem length_finalOutput_le {m out : List Byte} {s : State} (h : (finalOutput m s).1 = some out) :
    out.length ≤ m.length + 16 := by
  unfold finalOutput at h
  split at h
  · cases h
    rw [State.length_runChain]
    omega
  · split at h
    · cases h
      exact length_encryptFinal_le m s
    · have hf := length_fullTail m s
      simp only [decryptFinal] at h
      split at h
      · cases h
      · obtain ⟨strip, -, rfl⟩ := Option.map_eq_some_iff.1 h
        rw [List.length_take]
        split at hf <;> omega

/-! The frame of a command. -/

/-- From `s` to `t` the configuration is kept, at most `cap` bytes are reported, and memory changes
only in the range of the reported bytes. -/
def OutputFrame (s t : State) (outAddr cap : Nat) : Prop :=
  SameConfiguration s t ∧ t.count.toNat ≤ cap ∧
    ∀ a, ¬InRange outAddr t.count.toNat a → t.mem.read a = s.mem.read a

theorem sameConfiguration_refl (s : State) : SameConfiguration s s :=
  ⟨rfl, rfl, rfl, rfl, rfl, rfl, rfl⟩

theorem sameConfiguration_blockOutput (c : List Byte) (s : State) :
    SameConfiguration s (blockOutput c s).2 := by
  simp [SameConfiguration]

theorem sameConfiguration_finalOutput (m : List Byte) (s : State) :
    SameConfiguration s (finalOutput m s).2 := by
  simp [SameConfiguration]

theorem sameConfiguration_raise {s u : State} {e : ErrorEntry} (he : e ≠ .configuration)
    (h : SameConfiguration s u) : SameConfiguration s (u.raise e) := by
  cases e with
  | configuration => exact absurd rfl he
  | usageInMessage | usageRefused | padding => exact h

/-- Every error but LOAD's reports no byte and writes none (R134). -/
theorem outputFrame_raise {s u : State} {e : ErrorEntry} (he : e ≠ .configuration)
    (h : SameConfiguration s u) (hmem : u.mem = s.mem) (outAddr cap : Nat) :
    OutputFrame s (u.raise e) outAddr cap := by
  obtain ⟨hm, -, -, -, hc⟩ := u.raise_frame e
  exact ⟨sameConfiguration_raise he h, by simp [hc], fun a _ => by rw [hm, hmem]⟩

/-- Delivered output is framed by its own length, which COUNT holds as long as it has 32 bits. -/
theorem outputFrame_deliver {s u : State} (h : SameConfiguration s u) (hmem : u.mem = s.mem)
    {outAddr cap : Nat} {out : List Byte} (hcap : out.length ≤ cap) (hlt : out.length < 2 ^ 32) :
    OutputFrame s (u.deliver outAddr out) outAddr cap := by
  have hc : (u.deliver outAddr out).count.toNat = out.length := Nat.mod_eq_of_lt hlt
  refine ⟨h, hc.trans_le hcap, fun a ha => ?_⟩
  rw [hc] at ha
  rw [← hmem]
  exact Memory.read_writeBytes_outside u.mem outAddr out ha

theorem exec_load_frame {dir : Direction} {mode pad : BitVec 3} {ka kl va vl : Word} {s t : State}
    (h : exec (.load dir mode pad ka kl va vl) s = .next t) :
    t.mem = s.mem ∧ t.platform = s.platform ∧ t.host = s.host ∧ t.count = 0 := by
  rcases exec_load_next h with ⟨-, rfl⟩ | ⟨-, m, p, k, iv, -, -, rfl⟩
  · simp
  · simp

theorem exec_block_frame {ia ic oa : Word} {s t : State} (h : exec (.block ia ic oa) s = .next t) :
    OutputFrame s t oa.toNat ic.toNat := by
  rcases exec_block_next h with ⟨-, rfl⟩ | ⟨-, -, rfl⟩ | ⟨r, rfl, -, hb, -, -, rfl⟩
  · exact outputFrame_raise (by decide) (sameConfiguration_refl s) rfl _ _
  · exact outputFrame_raise (by decide) (sameConfiguration_refl s) rfl _ _
  · have hlen := length_blockOutput_le (c := s.mem.readBytes ia.toNat ic.toNat) s
    simp only [BlockCountFault, Memory.length_readBytes] at hb hlen
    have hout := hlen (by omega)
    exact outputFrame_deliver (sameConfiguration_blockOutput _ s) (blockOutput_mem _ s) hout
      (by omega)

theorem exec_final_frame {ia ic oa : Word} {s t : State} (h : exec (.final ia ic oa) s = .next t) :
    OutputFrame s t oa.toNat (ic.toNat + 16) := by
  rcases exec_final_next h with
    ⟨-, rfl⟩ | ⟨-, -, rfl⟩ | ⟨r, rfl, -, hb, -, ⟨-, rfl⟩ | ⟨out, hr, -, rfl⟩⟩
  · exact outputFrame_raise (by decide) (sameConfiguration_refl s) rfl _ _
  · exact outputFrame_raise (by decide) (sameConfiguration_refl s) rfl _ _
  · exact outputFrame_raise (by decide) (sameConfiguration_finalOutput _ s)
      (finalOutput_mem _ s) _ _
  · have hout := length_finalOutput_le hr
    rw [Memory.length_readBytes] at hout
    unfold FinalCountFault at hb
    exact outputFrame_deliver (sameConfiguration_finalOutput _ s) (finalOutput_mem _ s) hout
      (by omega)

/-- Settles O28, command by command: an error writes nothing, and output is delivered to its own
range, which is no longer than the capacity of R38 and so short enough for COUNT. -/
theorem commandFrames : Obligations.CommandFrames := by
  refine ⟨fun s t dir mode pad ka kl va vl h => exec_load_frame h, ?_⟩
  rintro s t ia ic oa i (rfl | rfl) h
  · exact exec_block_frame h
  · exact exec_final_frame h

end Sys2Proof.Machine
end

section
/-! SUPPORT. The working registers X are written and never read (R24): each operation of the machine,
on the state with another X, does the same but for X. -/

namespace Sys2Proof.Machine

/-- The state with other values in the working registers. -/
def State.withX (s : State) (v : Vector Word 4) : State := { s with x := v }

/-- The outcome with other values in the working registers of its next state. -/
def outcomeWithX (v : Vector Word 4) :
    Host.Outcome State Fault Refusal → Host.Outcome State Fault Refusal
  | .next t => .next (t.withX v)
  | .fault r => .fault r
  | .refused r => .refused r

@[simp] theorem State.withX_phase (s : State) (v : Vector Word 4) :
    (s.withX v).phase = s.phase := rfl
@[simp] theorem State.withX_dir (s : State) (v : Vector Word 4) : (s.withX v).dir = s.dir := rfl
@[simp] theorem State.withX_pad (s : State) (v : Vector Word 4) : (s.withX v).pad = s.pad := rfl
@[simp] theorem State.withX_draws (s : State) (v : Vector Word 4) :
    (s.withX v).draws = s.draws := rfl
@[simp] theorem State.withX_status (s : State) (v : Vector Word 4) :
    (s.withX v).status = s.status := rfl
@[simp] theorem State.withX_host (s : State) (v : Vector Word 4) : (s.withX v).host = s.host := rfl
@[simp] theorem State.withX_platform (s : State) (v : Vector Word 4) :
    (s.withX v).platform = s.platform := rfl

@[simp] theorem State.withX_memRead (s : State) (v : Vector Word 4) (a n : Nat) :
    (s.withX v).memRead a n = s.memRead a n := rfl
@[simp] theorem State.withX_reserve (s : State) (v : Vector Word 4) (a n : Nat) :
    (s.withX v).reserve a n = s.reserve a n := rfl
@[simp] theorem State.withX_readIv (s : State) (v : Vector Word 4) (m : Mode) (a : Nat) :
    (s.withX v).readIv m a = s.readIv m a := rfl
@[simp] theorem State.withX_withheld (s : State) (v : Vector Word 4) :
    (s.withX v).withheld = s.withheld := rfl
@[simp] theorem State.withX_discard (s : State) (v : Vector Word 4) :
    (s.withX v).discard = s.discard.withX v := rfl
@[simp] theorem State.withX_build (s : State) (v : Vector Word 4) (d : Direction) (m : Mode)
    (p : Padding) (k iv : Block) : (s.withX v).build d m p k iv = s.build d m p k iv := rfl
@[simp] theorem State.withX_resetEngine (s : State) (v : Vector Word 4) :
    (s.withX v).resetEngine = s.resetEngine := rfl

@[simp] theorem State.withX_raise (s : State) (v : Vector Word 4) (e : ErrorEntry) :
    (s.withX v).raise e = (s.raise e).withX v := by
  cases e <;> rfl

theorem outcomeWithX_next_self (t : State) : outcomeWithX t.x (.next t) = .next t := rfl

/-! The mode layer and the padding layer. -/

/-- Chain keeps X if no block goes through, and overwrites it otherwise. -/
theorem State.withX_runChain (s : State) (v : Vector Word 4) (m : List Byte) :
    ∃ w, (s.withX v).runChain m = ((s.runChain m).1, (s.runChain m).2.withX w) := by
  by_cases hm : m = []
  · subst hm
    exact ⟨v, rfl⟩
  · refine ⟨Config.scratch s.draws, ?_⟩
    simp only [State.runChain, hm, if_false]
    rfl

theorem withX_fullTail (m : List Byte) (s : State) (v : Vector Word 4) :
    fullTail m (s.withX v) = fullTail m s := rfl

theorem withX_blockOutput (c : List Byte) (s : State) (v : Vector Word 4) :
    ∃ w, blockOutput c (s.withX v) = ((blockOutput c s).1, (blockOutput c s).2.withX w) := by
  obtain ⟨w, hw⟩ := s.withX_runChain v c
  unfold blockOutput decryptBlock
  simp only [State.withX_dir, State.withX_pad, State.withX_withheld, hw]
  split_ifs with hd hc
  · exact ⟨v, rfl⟩
  · exact ⟨w, rfl⟩
  · exact ⟨w, rfl⟩

theorem withX_encryptFinal (m : List Byte) (s : State) (v : Vector Word 4) :
    ∃ w, encryptFinal m (s.withX v) = ((encryptFinal m s).1, (encryptFinal m s).2.withX w) :=
  s.withX_runChain v (padded s.pad m (isoDraw s.draws))

theorem withX_decryptFinal (c : List Byte) (s : State) (v : Vector Word 4) :
    ∃ w, decryptFinal c (s.withX v) = ((decryptFinal c s).1, (decryptFinal c s).2.withX w) := by
  obtain ⟨w, hw⟩ := s.withX_runChain v c
  exact ⟨w, Prod.ext rfl (congrArg Prod.snd hw :)⟩

theorem withX_finalOutput (m : List Byte) (s : State) (v : Vector Word 4) :
    ∃ w, finalOutput m (s.withX v) = ((finalOutput m s).1, (finalOutput m s).2.withX w) := by
  simp only [finalOutput, State.withX_pad, State.withX_dir]
  by_cases hp : s.pad = .none
  · obtain ⟨w, hw⟩ := s.withX_runChain v m
    exact ⟨w, by simp only [hp, if_true, hw]⟩
  · simp only [hp, if_false]
    cases s.dir with
    | encrypt =>
      obtain ⟨w, hw⟩ := withX_encryptFinal m s v
      exact ⟨w, by rw [hw]⟩
    | decrypt => exact withX_decryptFinal m s v

theorem withX_outputLength (m : List Byte) (s : State) (v : Vector Word 4) :
    outputLength m (s.withX v) = outputLength m s := by
  obtain ⟨w, hw⟩ := withX_finalOutput m s v
  simp only [outputLength, hw, withX_fullTail, State.withX_draws]

/-! The commands. -/

theorem withX_execLoad (dir : Direction) (mode pad : BitVec 3) (ka kl va vl : Word) (s : State)
    (v : Vector Word 4) : ∃ w, execLoad dir mode pad ka kl va vl (s.withX v) =
      outcomeWithX w (execLoad dir mode pad ka kl va vl s) := by
  simp only [execLoad, State.withX_discard, State.withX_memRead, State.withX_readIv,
    State.withX_build, State.withX_raise]
  cases loadConfiguration mode pad kl vl with
  | none => exact ⟨v, rfl⟩
  | some mp =>
    cases s.discard.memRead ka.toNat 16 with
    | error f => exact ⟨v, rfl⟩
    | ok key =>
      cases hiv : s.discard.readIv mp.1 va.toNat with
      | error f => exact ⟨v, by simp only [hiv]; rfl⟩
      | ok iv => exact ⟨Config.scratch s.draws, by simp only [hiv]; rfl⟩

theorem withX_execBlock (ia ic oa : Word) (s : State) (v : Vector Word 4) :
    ∃ w, execBlock ia ic oa (s.withX v) = outcomeWithX w (execBlock ia ic oa s) := by
  simp only [execBlock, State.withX_phase, State.withX_memRead, State.withX_raise]
  split_ifs with hp hb
  · exact ⟨v, rfl⟩
  · exact ⟨v, rfl⟩
  · cases s.memRead ia.toNat ic.toNat with
    | error f => exact ⟨v, rfl⟩
    | ok c =>
      obtain ⟨w, hw⟩ := withX_blockOutput c s v
      simp only [hw, State.withX_reserve]
      cases s.reserve oa.toNat (blockOutput c s).1.length with
      | error f => exact ⟨v, rfl⟩
      | ok u => exact ⟨w, rfl⟩

theorem withX_execFinal (ia ic oa : Word) (s : State) (v : Vector Word 4) :
    ∃ w, execFinal ia ic oa (s.withX v) = outcomeWithX w (execFinal ia ic oa s) := by
  simp only [execFinal, State.withX_phase, State.withX_dir, State.withX_pad, State.withX_memRead,
    State.withX_raise]
  split_ifs with hp hb
  · exact ⟨v, rfl⟩
  · exact ⟨v, rfl⟩
  · cases s.memRead ia.toNat ic.toNat with
    | error f => exact ⟨v, rfl⟩
    | ok m =>
      obtain ⟨w, hw⟩ := withX_finalOutput m s v
      simp only [hw, State.withX_reserve, withX_outputLength]
      cases s.reserve oa.toNat (outputLength m s) with
      | error f => exact ⟨v, rfl⟩
      | ok u =>
        cases (finalOutput m s).1 with
        | none => exact ⟨w, by rw [State.withX_raise]; rfl⟩
        | some out => exact ⟨w, rfl⟩

theorem withX_exec (i : Instr) (s : State) (v : Vector Word 4) :
    ∃ w, exec i (s.withX v) = outcomeWithX w (exec i s) := by
  cases i with
  | load dir mode pad ka kl va vl => exact withX_execLoad dir mode pad ka kl va vl s v
  | block ia ic oa => exact withX_execBlock ia ic oa s v
  | final ia ic oa => exact withX_execFinal ia ic oa s v

theorem withX_runCommand (d : Descriptor) (s : State) (v : Vector Word 4) :
    ∃ w, runCommand d (s.withX v) = outcomeWithX w (runCommand d s) := by
  unfold runCommand
  cases decode d with
  | ok i => exact withX_exec i s v
  | error e => exact ⟨v, by rw [State.withX_raise]; rfl⟩

/-! The host's events. -/

/-- A reset in the middle of a command resets X too, so nothing of it is left. -/
theorem withX_abandonCommand (d : Descriptor) (s : State) (v : Vector Word 4) :
    abandonCommand d (s.withX v) = abandonCommand d s := by
  obtain ⟨w, hw⟩ := withX_runCommand d s v
  unfold abandonCommand
  rw [hw]
  cases runCommand d s <;> rfl

theorem withX_hostStore (addr : Nat) (bytes : List Byte) (s : State) (v : Vector Word 4) :
    hostStore addr bytes (s.withX v) = outcomeWithX v (hostStore addr bytes s) := by
  unfold hostStore
  rw [State.withX_platform]
  split_ifs <;> rfl

theorem withX_hostEvent (e : HostEvent) (s : State) (v : Vector Word 4) :
    ∃ w, hostEvent e (s.withX v) = outcomeWithX w (hostEvent e s) := by
  cases e with
  | command d => exact withX_runCommand d s v
  | commandIfOk d =>
    by_cases hs : s.status = .ok
    · simp only [hostEvent, State.withX_status, hs, if_true]
      exact withX_runCommand d s v
    · exact ⟨v, by simp only [hostEvent, State.withX_status, hs, if_false, outcomeWithX]⟩
  | store addr bytes => exact ⟨v, withX_hostStore addr bytes s v⟩
  | reset => exact ⟨State.reset.x, rfl⟩
  | resetDuring d =>
    refine ⟨(abandonCommand d s).x, ?_⟩
    simp only [hostEvent, withX_abandonCommand, outcomeWithX_next_self]

/-- A step on the state with another X has the same outcome but for X, faults and refusals
included. -/
theorem withX_step (s : State) (v : Vector Word 4) :
    ∃ w, step (s.withX v) = outcomeWithX w (step s) := by
  unfold step
  rw [State.withX_host]
  cases s.host with
  | nil => exact ⟨v, rfl⟩
  | cons e rest => exact withX_hostEvent e { s with host := rest } v

/-- Settles O58: no operation of the machine reads X, so the step of `withX_step` is the same but
for X. -/
theorem scratchIsNeverObserved : Obligations.ScratchIsNeverObserved := by
  intro s t v h
  obtain ⟨w, hw⟩ := withX_step s v
  rw [h] at hw
  exact ⟨w, hw⟩

end Sys2Proof.Machine
end

section
/-! SUPPORT. The registers after reset (R28). -/

namespace Sys2Proof.Machine

@[simp] theorem getElem_blockZero {i : Nat} (hi : i < 16) : Block.zero[i] = 0 :=
  Vector.getElem_replicate hi

/-- Settles O7, register by register: the named ones hold their first value, and every word of RK
and byte of the blocks is one of the zeros they are filled with. -/
theorem registersAfterReset : Obligations.RegistersAfterReset := by
  refine ⟨rfl, rfl, rfl, rfl, fun r => ?_, fun i => ⟨?_, ?_, ?_⟩, rfl, rfl, rfl⟩
  · exact Vector.getElem_replicate r.isLt
  · exact getElem_blockZero i.isLt
  · exact getElem_blockZero i.isLt
  · exact getElem_blockZero i.isLt

end Sys2Proof.Machine
end

section
/-! SUPPORT. Memory through a step (R30 to R32): a command stores at most one string, into a range
that is admitted for writing, and every way a step changes memory keeps the invariants of memory. -/

namespace Sys2Proof.Machine

open Sys2Proof.Safety

/-! What a command does to memory. -/

/-- From `s` to `t` one string is stored, into a range admitted for writing (R32). The string is empty
where nothing is written. -/
def StoresAdmitted (s t : State) : Prop :=
  t.platform = s.platform ∧ ∃ a out, admits s.platform .write a out.length = true ∧
    t.mem = s.mem.writeBytes a out

theorem storesAdmitted_of_mem_eq {s t : State} (hp : t.platform = s.platform) (hm : t.mem = s.mem) :
    StoresAdmitted s t :=
  ⟨hp, 0, [], admits_zero _ _ _, hm⟩

/-- Raising an error stores nothing (R134). -/
theorem storesAdmitted_raise {s u : State} (e : ErrorEntry) (hp : u.platform = s.platform)
    (hm : u.mem = s.mem) : StoresAdmitted s (u.raise e) := by
  obtain ⟨hmem, hplatform, -, -, -⟩ := u.raise_frame e
  exact storesAdmitted_of_mem_eq (hplatform.trans hp) (hmem.trans hm)

/-- Delivering output stores it, into the range that has been admitted (R112, R113). -/
theorem storesAdmitted_deliver {s u : State} {a : Nat} {out : List Byte}
    (hp : u.platform = s.platform) (hm : u.mem = s.mem)
    (hw : admits s.platform .write a out.length = true) : StoresAdmitted s (u.deliver a out) :=
  ⟨hp, a, out, hw, congrArg (Memory.writeBytes · a out) hm⟩

theorem exec_storesAdmitted {i : Instr} {s t : State} (h : exec i s = .next t) :
    StoresAdmitted s t := by
  cases i with
  | load dir mode pad ka kl va vl =>
    obtain ⟨hm, hp, -, -⟩ := exec_load_frame h
    exact storesAdmitted_of_mem_eq hp hm
  | block ia ic oa =>
    rcases exec_block_next h with ⟨-, rfl⟩ | ⟨-, -, rfl⟩ | ⟨r, rfl, -, -, -, hw, rfl⟩
    · exact storesAdmitted_raise _ rfl rfl
    · exact storesAdmitted_raise _ rfl rfl
    · exact storesAdmitted_deliver (blockOutput_platform _ s) (blockOutput_mem _ s) hw
  | final ia ic oa =>
    rcases exec_final_next h with
      ⟨-, rfl⟩ | ⟨-, -, rfl⟩ | ⟨r, rfl, -, -, -, ⟨-, rfl⟩ | ⟨out, -, hw, rfl⟩⟩
    · exact storesAdmitted_raise _ rfl rfl
    · exact storesAdmitted_raise _ rfl rfl
    · exact storesAdmitted_raise _ (finalOutput_platform _ s) (finalOutput_mem _ s)
    · exact storesAdmitted_deliver (finalOutput_platform _ s) (finalOutput_mem _ s) hw

theorem runCommand_storesAdmitted {d : Descriptor} {s t : State} (h : runCommand d s = .next t) :
    StoresAdmitted s t := by
  rcases runCommand_cases d s with ⟨e, -, hr⟩ | ⟨i, -, hr⟩ <;> rw [hr] at h
  · cases h
    exact storesAdmitted_raise _ rfl rfl
  · exact exec_storesAdmitted h

/-! What keeps the invariants of memory. -/

/-- Storing a string keeps the invariants, if the bytes it has lie inside the address space. -/
theorem memoryInv_writeBytes {s t : State} {a : Nat} {out : List Byte} (hs : MemoryInv s)
    (hp : t.platform = s.platform) (hm : t.mem = s.mem.writeBytes a out)
    (hspace : out.length ≠ 0 → a + out.length ≤ 2 ^ s.platform.addrBits) : MemoryInv t := by
  obtain ⟨hwf, hlow⟩ := hs
  refine ⟨hm ▸ Memory.wf_writeBytes out a hwf, fun c hc => ?_⟩
  rw [hm] at hc
  rw [hp]
  rcases Memory.mem_writeBytes out hc with hnew | hold
  · have := hspace (by omega)
    omega
  · exact hlow c hold

theorem memoryInv_of_storesAdmitted {s t : State} (hs : MemoryInv s) (h : StoresAdmitted s t) :
    MemoryInv t := by
  obtain ⟨hp, a, out, hw, hm⟩ := h
  exact memoryInv_writeBytes hs hp hm (admits_in_space hw)

theorem runCommand_memoryInv {d : Descriptor} {s t : State} (hs : MemoryInv s)
    (h : runCommand d s = .next t) : MemoryInv t :=
  memoryInv_of_storesAdmitted hs (runCommand_storesAdmitted h)

theorem hostStore_memoryInv {addr : Nat} {bytes : List Byte} {s t : State} (hs : MemoryInv s)
    (h : hostStore addr bytes s = .next t) : MemoryInv t := by
  unfold hostStore at h
  split at h
  · next hfit =>
    cases h
    exact memoryInv_writeBytes hs rfl rfl fun _ => hfit
  · cases h

/-- A blend of two memories of one address space keeps the invariants. -/
theorem memoryInv_blend {s t u : State} {pick : Nat → Bool} (hs : MemoryInv s) (ht : MemoryInv t)
    (hts : t.platform = s.platform) (hut : u.platform = t.platform)
    (hm : u.mem = s.mem.blend t.mem pick) : MemoryInv u := by
  obtain ⟨hwf, hold⟩ := hs
  obtain ⟨-, hnew⟩ := ht
  refine ⟨hm ▸ Memory.wf_blend t.mem pick hwf, fun c hc => ?_⟩
  rw [hm] at hc
  rcases Memory.mem_blend hc with ⟨d, hd, hdc⟩ | ⟨d, hd, hdc⟩
  · rw [hut, hts, ← hdc]
    exact hold d hd
  · rw [hut, ← hdc]
    exact hnew d hd

/-- A command cut short leaves a blend of the memories before and after it, or has written nothing
(R150). -/
theorem abandonCommand_memoryInv {s : State} (d : Descriptor) (hs : MemoryInv s) :
    MemoryInv (abandonCommand d s) := by
  unfold abandonCommand
  cases h : runCommand d s with
  | next t =>
    obtain ⟨hts, -⟩ := runCommand_storesAdmitted h
    exact memoryInv_blend hs (runCommand_memoryInv hs h) hts rfl rfl
  | fault f => exact hs
  | refused r => exact hs

theorem hostEvent_memoryInv {e : HostEvent} {s t : State} (hs : MemoryInv s)
    (h : hostEvent e s = .next t) : MemoryInv t := by
  cases e with
  | command d => exact runCommand_memoryInv hs h
  | commandIfOk d =>
    simp only [hostEvent] at h
    split at h
    · exact runCommand_memoryInv hs h
    · cases h
      exact hs
  | store addr bytes => exact hostStore_memoryInv hs h
  | reset =>
    cases h
    exact hs
  | resetDuring d =>
    cases h
    exact abandonCommand_memoryInv d hs

/-- Settles O55, event by event: memory changes only by the store of a string that lies inside the
address space, or by a blend of two memories that meet the invariants. -/
theorem stepKeepsMemoryCanonical : Obligations.StepKeepsMemoryCanonical := by
  intro s t hs h
  unfold step at h
  split at h
  · cases h
    exact hs
  · next rest _ => exact hostEvent_memoryInv (s := { s with host := rest }) hs h

end Sys2Proof.Machine
end

section
/-! SUPPORT. Where a command is stuck (R32, R138): how many bytes each form of BLOCK and FINAL writes,
and that an unadmitted range of that length stops it. -/

namespace Sys2Proof.Machine

open Sys2Proof.Safety

/-! The commands stop in no other way. -/

theorem exec_stops (i : Instr) (s : State) :
    Completes (exec i s) ∨
    (∃ a n, exec i s = .fault (.stuckRead a n) ∧ admits s.platform .read a n = false) ∨
    (∃ a n, exec i s = .fault (.stuckWrite a n) ∧ admits s.platform .write a n = false) := by
  cases i with
  | load dir mode pad ka kl va vl =>
    rcases execLoad_cases dir mode pad ka kl va vl s with
      ⟨-, h⟩ | ⟨m, p, -, hk, h⟩ | ⟨p, -, -, hv, h⟩ | ⟨m, p, iv, -, -, -, h⟩
    · exact .inl ⟨_, h⟩
    · exact .inr (.inl ⟨_, _, h, hk⟩)
    · exact .inr (.inl ⟨_, _, h, hv⟩)
    · exact .inl ⟨_, h⟩
  | block ia ic oa =>
    rcases execBlock_cases ia ic oa s with
      ⟨-, h⟩ | ⟨-, -, h⟩ | ⟨-, -, hr, h⟩ | ⟨r, -, -, -, -, h⟩
    · exact .inl ⟨_, h⟩
    · exact .inl ⟨_, h⟩
    · exact .inr (.inl ⟨_, _, h, hr⟩)
    · split at h
      · exact .inl ⟨_, h⟩
      · next hw => exact .inr (.inr ⟨_, _, h, by simpa using hw⟩)
  | final ia ic oa =>
    rcases execFinal_cases ia ic oa s with
      ⟨-, h⟩ | ⟨-, -, h⟩ | ⟨-, -, hr, h⟩ |
        ⟨m, n, r, -, -, -, -, -, -, ⟨hw, h⟩ | ⟨-, -, h⟩ | ⟨out, -, -, -, h⟩⟩
    · exact .inl ⟨_, h⟩
    · exact .inl ⟨_, h⟩
    · exact .inr (.inl ⟨_, _, h, hr⟩)
    · exact .inr (.inr ⟨_, _, h, hw⟩)
    · exact .inl ⟨_, h⟩
    · exact .inl ⟨_, h⟩

/-- Settles O20: an illegal descriptor completes with an error, and a decoded command stops only as
`exec_stops` says. -/
theorem commandsStopOnlyOnUnadmittedRanges : Obligations.CommandsStopOnlyOnUnadmittedRanges := by
  intro s d
  rcases runCommand_cases d s with ⟨e, -, h⟩ | ⟨i, -, h⟩ <;> rw [h]
  · exact .inl ⟨_, rfl⟩
  · exact exec_stops i s

/-! The lengths of the output ranges. -/

/-- On encrypt or without padding, BLOCK writes as many bytes as it reads (R96). -/
theorem length_blockOutput_direct {c : List Byte} {s : State} (h : s.dir = .encrypt ∨ s.pad = .none)
    (hc : c.length % 16 = 0) : (blockOutput c s).1.length = c.length := by
  have hd : ¬(s.dir = .decrypt ∧ s.pad ≠ .none) := by
    rcases h with h | h <;> simp [h]
  rw [blockOutput, if_neg hd, State.length_runChain]
  omega

/-- On decrypt with padding, BLOCK writes the tail of the message less the block it withholds (R98). -/
theorem length_blockOutput_withholding {c : List Byte} {s : State} (hd : s.dir = .decrypt)
    (hp : s.pad ≠ .none) (hc : 16 ≤ c.length) :
    (blockOutput c s).1.length = (fullTail c s).length - 16 := by
  have hne : c ≠ [] := List.ne_nil_of_length_pos (by omega)
  have hr := s.length_runChain c
  simp only [blockOutput, hd, hp, ne_eq, not_false_eq_true, and_self, if_true, decryptBlock, hne,
    if_false, fullTail, List.length_append, List.length_take]
  omega

/-- Every padding but None adds exactly as many bytes as it is asked for, up to a block (R92 to
R95). -/
theorem length_padBytes {pad : Padding} {k : Nat} (draw : Nat) (hp : pad ≠ .none) (h1 : 1 ≤ k)
    (h16 : k ≤ 16) : (padBytes pad k (isoDraw draw)).length = k := by
  cases pad with
  | none => exact absurd rfl hp
  | pkcs7 | zeros => exact List.length_replicate
  | ansix923 =>
    simp only [padBytes, List.length_append, List.length_replicate, List.length_singleton]
    omega
  | iso10126 =>
    simp only [padBytes, isoDraw, List.length_append, List.length_take, List.length_map,
      List.length_range, List.length_singleton]
    omega

theorem outputLength_some {m out : List Byte} {s : State} (h : (finalOutput m s).1 = some out) :
    outputLength m s = out.length := by
  rw [outputLength, h]

/-- Without padding FINAL writes as many bytes as it reads (R113). -/
theorem outputLength_noPadding {m : List Byte} {s : State} (hp : s.pad = .none)
    (hm : m.length % 16 = 0) : outputLength m s = m.length := by
  have h : (finalOutput m s).1 = some (s.runChain m).1 := by rw [finalOutput, if_pos hp]
  rw [outputLength_some h, State.length_runChain]
  omega

/-- On encrypt with padding FINAL writes what it reads and the pad (R97). -/
theorem outputLength_encrypt {m : List Byte} {s : State} (hd : s.dir = .encrypt)
    (hp : s.pad ≠ .none) : outputLength m s = m.length + padLen m.length := by
  have h : (finalOutput m s).1 = some (encryptFinal m s).1 := by
    simp only [finalOutput, hp, if_false, hd]
  have hk : padLen m.length = 16 - m.length % 16 := rfl
  rw [outputLength_some h, encryptFinal, State.length_runChain, padded, List.length_append,
    length_padBytes _ hp (by omega) (by omega)]
  omega

/-- On decrypt with padding FINAL outputs the tail less what the validator of its last block strips
(R99). -/
theorem finalOutput_decrypt {m : List Byte} {s : State} (hd : s.dir = .decrypt) (hp : s.pad ≠ .none)
    (hf : fullTail m s ≠ []) : (finalOutput m s).1 =
      (validate s.pad (lastBlock (fullTail m s))).map fun strip =>
        (fullTail m s).take ((fullTail m s).length - strip) := by
  simp only [finalOutput, hp, if_false, hd, decryptFinal, hf]

/-- Where the pad is accepted, that is as many bytes as the tail has less the pad. -/
theorem outputLength_accepted {m : List Byte} {s : State} {strip : Nat} (hd : s.dir = .decrypt)
    (hp : s.pad ≠ .none) (hf : fullTail m s ≠ [])
    (hv : validate s.pad (lastBlock (fullTail m s)) = some strip) :
    outputLength m s = (fullTail m s).length - strip := by
  have h := finalOutput_decrypt hd hp hf
  rw [hv, Option.map_some] at h
  rw [outputLength_some h, List.length_take]
  omega

/-! Each command is stuck on an unadmitted range, where the checks before it pass. -/

theorem exec_load_stuck_key {dir : Direction} {mode pad : BitVec 3} {ka kl va vl : Word} {s : State}
    (hc : ¬ConfigurationFault mode pad kl vl) (hk : admits s.platform .read ka.toNat 16 = false) :
    exec (.load dir mode pad ka kl va vl) s = .fault (.stuckRead ka.toNat 16) := by
  rw [← loadConfiguration_eq_none] at hc
  rcases execLoad_cases dir mode pad ka kl va vl s with
    ⟨h, -⟩ | ⟨m, p, -, -, h⟩ | ⟨p, -, h, -⟩ | ⟨m, p, iv, -, h, -⟩
  · exact absurd h hc
  · exact h
  · simp [hk] at h
  · simp [hk] at h

/-- LOAD keeps the mode that its `MODE` code names (R50). -/
theorem modeOfCode_of_loadConfiguration {mode pad : BitVec 3} {kl vl : Word} {m : Mode}
    {p : Padding} (h : loadConfiguration mode pad kl vl = some (m, p)) : modeOfCode mode = some m := by
  simp only [loadConfiguration] at h
  cases hm : modeOfCode mode with
  | none => simp [hm] at h
  | some m' =>
    cases hp : paddingOfCode pad with
    | none => simp [hm, hp] at h
    | some p' =>
      simp only [hm, hp, Option.ite_none_left_eq_some, Option.some.injEq, Prod.mk.injEq] at h
      rw [h.2.2.1]

theorem exec_load_stuck_iv {dir : Direction} {pad : BitVec 3} {ka kl va vl : Word} {s : State}
    (hc : ¬ConfigurationFault 1 pad kl vl) (hk : admits s.platform .read ka.toNat 16 = true)
    (hv : admits s.platform .read va.toNat 16 = false) :
    exec (.load dir 1 pad ka kl va vl) s = .fault (.stuckRead va.toNat 16) := by
  rw [← loadConfiguration_eq_none] at hc
  rcases execLoad_cases dir 1 pad ka kl va vl s with
    ⟨h, -⟩ | ⟨m, p, -, h, -⟩ | ⟨p, -, -, -, h⟩ | ⟨m, p, iv, hm, -, hiv, -⟩
  · exact absurd h hc
  · simp [hk] at h
  · exact h
  · rcases hiv with ⟨rfl, -⟩ | ⟨-, h, -⟩
    · exact absurd (modeOfCode_of_loadConfiguration hm) (by decide)
    · simp [hv] at h

theorem exec_block_stuck_read {ia ic oa : Word} {s : State} (hp : s.phase = .ready)
    (hb : ¬BlockCountFault ic.toNat) (hr : admits s.platform .read ia.toNat ic.toNat = false) :
    exec (.block ia ic oa) s = .fault (.stuckRead ia.toNat ic.toNat) := by
  rw [← badBlockCount_iff, Bool.not_eq_true] at hb
  simp [exec, execBlock, hp, hb, State.memRead, hr]

theorem exec_block_stuck_write {ia ic oa : Word} {s : State} {n : Nat} (hp : s.phase = .ready)
    (hb : ¬BlockCountFault ic.toNat) (hr : admits s.platform .read ia.toNat ic.toNat = true)
    (hn : (blockOutput (s.mem.readBytes ia.toNat ic.toNat) s).1.length = n)
    (hw : admits s.platform .write oa.toNat n = false) :
    exec (.block ia ic oa) s = .fault (.stuckWrite oa.toNat n) := by
  rw [← badBlockCount_iff, Bool.not_eq_true] at hb
  simp [exec, execBlock, hp, hb, State.memRead, hr, State.reserve, hn, hw]

theorem exec_final_stuck_read {ia ic oa : Word} {s : State} (hp : s.phase = .ready)
    (hb : ¬FinalCountFault s ic.toNat) (hr : admits s.platform .read ia.toNat ic.toNat = false) :
    exec (.final ia ic oa) s = .fault (.stuckRead ia.toNat ic.toNat) := by
  rw [← badFinalCount_iff, Bool.not_eq_true] at hb
  simp [exec, execFinal, hp, hb, State.memRead, hr]

theorem exec_final_stuck_write {ia ic oa : Word} {s : State} {n : Nat} (hp : s.phase = .ready)
    (hb : ¬FinalCountFault s ic.toNat) (hr : admits s.platform .read ia.toNat ic.toNat = true)
    (hn : outputLength (s.mem.readBytes ia.toNat ic.toNat) s = n)
    (hw : admits s.platform .write oa.toNat n = false) :
    exec (.final ia ic oa) s = .fault (.stuckWrite oa.toNat n) := by
  rw [← badFinalCount_iff, Bool.not_eq_true] at hb
  simp [exec, execFinal, hp, hb, State.memRead, hr, State.reserve, hn, hw]

/-- Settles O21: a read is stuck as it is, and a write at the length that its form of the command
outputs. -/
theorem unadmittedRangesAreStuck : Obligations.UnadmittedRangesAreStuck := by
  intro s ia ic oa dir mode pad va vl full hfull
  have hfull : full = fullTail (s.mem.readBytes ia.toNat ic.toNat) s := hfull
  subst hfull
  have hlen : (s.mem.readBytes ia.toNat ic.toNat).length = ic.toNat := Memory.length_readBytes ..
  refine ⟨exec_load_stuck_key, exec_load_stuck_iv, fun hp hb => ?_, fun hp hb => ?_⟩
  · have hwhole : ic.toNat % 16 = 0 := by
      unfold BlockCountFault at hb
      omega
    refine ⟨exec_block_stuck_read hp hb, fun hr => ⟨fun hd => ?_, fun hd hpad hne => ?_⟩⟩
    · refine exec_block_stuck_write hp hb hr ?_
      rw [length_blockOutput_direct hd (by rwa [hlen]), hlen]
    · have hpos : ic.toNat ≠ 0 := fun h => hne (BitVec.eq_of_toNat_eq h)
      exact exec_block_stuck_write hp hb hr
        (length_blockOutput_withholding hd hpad (by omega))
  · refine ⟨exec_final_stuck_read hp hb,
      fun hr => ⟨fun hpad => ?_, fun hd hpad => ?_, fun hd hpad hf => ⟨fun strip hv => ?_, ?_⟩⟩⟩
    · refine exec_final_stuck_write hp hb hr ?_
      have hwhole : ic.toNat % 16 = 0 := by
        simp only [FinalCountFault, hpad, or_true, true_and] at hb
        omega
      rw [outputLength_noPadding hpad (by rwa [hlen]), hlen]
    · refine exec_final_stuck_write hp hb hr ?_
      rw [outputLength_encrypt hd hpad, hlen]
    · exact exec_final_stuck_write hp hb hr (outputLength_accepted hd hpad hf hv)
    · intro hv hw
      have hnone : (finalOutput (s.mem.readBytes ia.toNat ic.toNat) s).1 = none := by
        rw [finalOutput_decrypt hd hpad hf, hv, Option.map_none]
      obtain ⟨k, hk, hn⟩ := outputLength_rejected hnone
      exact ⟨k, hk, exec_final_stuck_write hp hb hr hn (hw k hk)⟩

end Sys2Proof.Machine
end

section
/-! SUPPORT. Memory byte by byte (R31), and what BLOCK and FINAL read of it (R39): each operation on the
state with another memory that agrees on the input range does the same but for memory. -/

namespace Sys2Proof.Machine

open Sys2Proof.Safety

/-! MemRead and MemWrite (R31). -/

theorem Memory.getElem?_readBytes (m : Memory) {addr n i : Nat} (h : i < n) :
    (m.readBytes addr n)[i]? = some (m.read (addr + i)) := by
  rw [List.getElem?_eq_getElem (by simpa using h), Memory.getElem_readBytes m n addr i h]

theorem stored_writeBytes (m : Memory) (addr : Nat) (v : List Byte) :
    Stored m addr v (m.writeBytes addr v) := by
  refine ⟨fun i hi => ?_, fun a ha => m.read_writeBytes_outside addr v ha⟩
  rw [Memory.read_writeBytes, if_pos (by omega), Nat.add_sub_cancel_left]

/-- Settles O57: a string read has the bytes of its addresses, and a string written is stored. -/
theorem memReadAndMemWriteByByte : Obligations.MemReadAndMemWriteByByte := fun m addr n v =>
  ⟨m.length_readBytes n addr, fun _ hi => m.getElem?_readBytes hi, stored_writeBytes m addr v⟩

/-! The state with another memory. -/

/-- The state with another host memory. -/
def State.withMem (s : State) (m : Memory) : State := { s with mem := m }

@[simp] theorem State.withMem_phase (s : State) (m : Memory) : (s.withMem m).phase = s.phase := rfl
@[simp] theorem State.withMem_dir (s : State) (m : Memory) : (s.withMem m).dir = s.dir := rfl
@[simp] theorem State.withMem_pad (s : State) (m : Memory) : (s.withMem m).pad = s.pad := rfl
@[simp] theorem State.withMem_draws (s : State) (m : Memory) : (s.withMem m).draws = s.draws := rfl
@[simp] theorem State.withMem_withheld (s : State) (m : Memory) :
    (s.withMem m).withheld = s.withheld := rfl
@[simp] theorem State.withMem_reserve (s : State) (m : Memory) (a n : Nat) :
    (s.withMem m).reserve a n = s.reserve a n := rfl
@[simp] theorem State.withMem_raise (s : State) (m : Memory) (e : ErrorEntry) :
    (s.withMem m).raise e = (s.raise e).withMem m := by
  cases e <;> rfl

theorem State.withMem_deliver (s : State) (m : Memory) (a : Nat) (out : List Byte) :
    (s.withMem m).deliver a out = (s.deliver a out).withMem (m.writeBytes a out) := rfl

/-- A read sees another memory only in the range it reads. -/
theorem State.withMem_memRead {s : State} {m : Memory} {a n : Nat}
    (h : ∀ b, InRange a n b → m.read b = s.mem.read b) : (s.withMem m).memRead a n = s.memRead a n := by
  have hbytes : m.readBytes a n = s.mem.readBytes a n :=
    Memory.readBytes_congr fun b h1 h2 => h b ⟨h1, h2⟩
  simp only [State.memRead, State.withMem, hbytes]

/-! The mode layer and the padding layer touch no memory. -/

theorem State.withMem_runChain (s : State) (m : Memory) (c : List Byte) :
    (s.withMem m).runChain c = ((s.runChain c).1, (s.runChain c).2.withMem m) := by
  by_cases hc : c = []
  · subst hc
    rfl
  · simp only [State.runChain, hc, if_false]
    rfl

theorem withMem_blockOutput (c : List Byte) (s : State) (m : Memory) :
    blockOutput c (s.withMem m) = ((blockOutput c s).1, (blockOutput c s).2.withMem m) := by
  simp only [blockOutput, decryptBlock, State.withMem_dir, State.withMem_pad,
    State.withMem_withheld, State.withMem_runChain]
  split_ifs <;> rfl

theorem withMem_encryptFinal (c : List Byte) (s : State) (m : Memory) :
    encryptFinal c (s.withMem m) = ((encryptFinal c s).1, (encryptFinal c s).2.withMem m) :=
  s.withMem_runChain m (padded s.pad c (isoDraw s.draws))

theorem withMem_decryptFinal (c : List Byte) (s : State) (m : Memory) :
    decryptFinal c (s.withMem m) = ((decryptFinal c s).1, (decryptFinal c s).2.withMem m) :=
  Prod.ext rfl (congrArg Prod.snd (s.withMem_runChain m c) :)

theorem withMem_finalOutput (c : List Byte) (s : State) (m : Memory) :
    finalOutput c (s.withMem m) = ((finalOutput c s).1, (finalOutput c s).2.withMem m) := by
  simp only [finalOutput, State.withMem_dir, State.withMem_pad, State.withMem_runChain,
    withMem_encryptFinal, withMem_decryptFinal]
  split_ifs
  · rfl
  · cases s.dir <;> rfl

theorem withMem_outputLength (c : List Byte) (s : State) (m : Memory) :
    outputLength c (s.withMem m) = outputLength c s := by
  simp only [outputLength, fullTail, withMem_finalOutput, State.withMem_withheld,
    State.withMem_runChain, State.withMem_draws]

/-! The commands. -/

/-- The outcome is the next state `t` with another memory, and that memory holds the bytes of `t` in
the output range. -/
def SameOutput (t : State) (outAddr : Nat) (o : Host.Outcome State Fault Refusal) : Prop :=
  ∃ m, o = .next (t.withMem m) ∧ ∀ a, InRange outAddr t.count.toNat a → m.read a = t.mem.read a

/-- An error reports no byte, so its output range is empty (R54). -/
theorem sameOutput_raise (s : State) (m : Memory) (e : ErrorEntry) (outAddr : Nat) :
    SameOutput (s.raise e) outAddr (.next ((s.withMem m).raise e)) := by
  obtain ⟨-, -, -, -, hcount⟩ := s.raise_frame e
  refine ⟨m, by rw [State.withMem_raise], fun a ha => ?_⟩
  have hzero : (s.raise e).count.toNat = 0 := by simp [hcount]
  obtain ⟨hlo, hhi⟩ := ha
  omega

/-- Delivered output is the same bytes over any memory. -/
theorem sameOutput_deliver (s : State) (m : Memory) (outAddr : Nat) (out : List Byte) :
    SameOutput (s.deliver outAddr out) outAddr (.next ((s.withMem m).deliver outAddr out)) := by
  refine ⟨m.writeBytes outAddr out, by rw [State.withMem_deliver], fun a ha => ?_⟩
  obtain ⟨hlo, hhi⟩ := ha
  have hcount : (s.deliver outAddr out).count.toNat ≤ out.length := Nat.mod_le _ _
  have hin : outAddr ≤ a ∧ a < outAddr + out.length := ⟨hlo, by omega⟩
  change _ = (s.mem.writeBytes outAddr out).read a
  rw [Memory.read_writeBytes, Memory.read_writeBytes, if_pos hin, if_pos hin]

theorem execBlock_sameOutput {ia ic oa : Word} {s t : State} {m : Memory}
    (hm : ∀ a, InRange ia.toNat ic.toNat a → m.read a = s.mem.read a)
    (h : execBlock ia ic oa s = .next t) :
    SameOutput t oa.toNat (execBlock ia ic oa (s.withMem m)) := by
  simp only [execBlock, State.withMem_phase, State.withMem_memRead hm, withMem_blockOutput,
    State.withMem_reserve] at h ⊢
  split_ifs at h ⊢ with hp hb
  · cases h
    exact sameOutput_raise ..
  · cases h
    exact sameOutput_raise ..
  · cases hc : s.memRead ia.toNat ic.toNat with
    | error f => simp [hc] at h
    | ok c =>
      simp only [hc] at h ⊢
      cases hw : s.reserve oa.toNat (blockOutput c s).1.length with
      | error f => simp [hw] at h
      | ok u =>
        simp only [hw] at h ⊢
        cases h
        exact sameOutput_deliver ..

theorem execFinal_sameOutput {ia ic oa : Word} {s t : State} {m : Memory}
    (hm : ∀ a, InRange ia.toNat ic.toNat a → m.read a = s.mem.read a)
    (h : execFinal ia ic oa s = .next t) :
    SameOutput t oa.toNat (execFinal ia ic oa (s.withMem m)) := by
  simp only [execFinal, State.withMem_phase, State.withMem_dir, State.withMem_pad,
    State.withMem_memRead hm, withMem_finalOutput, withMem_outputLength,
    State.withMem_reserve] at h ⊢
  split_ifs at h ⊢ with hp hb
  · cases h
    exact sameOutput_raise ..
  · cases h
    exact sameOutput_raise ..
  · cases hc : s.memRead ia.toNat ic.toNat with
    | error f => simp [hc] at h
    | ok c =>
      simp only [hc] at h ⊢
      cases hw : s.reserve oa.toNat (outputLength c s) with
      | error f => simp [hw] at h
      | ok u =>
        simp only [hw] at h ⊢
        cases ho : (finalOutput c s).1 with
        | none =>
          simp only [ho] at h ⊢
          cases h
          exact sameOutput_raise ..
        | some out =>
          simp only [ho] at h ⊢
          cases h
          exact sameOutput_deliver _ m ..

/-- Settles O59: another memory that agrees on the input range gives the command the same input, and
so the same output and the same registers. -/
theorem onlyTheInputRangeIsRead : Obligations.OnlyTheInputRangeIsRead := by
  intro s t m ia ic oa i hi hm h
  have hsame : SameOutput t oa.toNat (exec i (s.withMem m)) := by
    rcases hi with rfl | rfl
    · exact execBlock_sameOutput hm h
    · exact execFinal_sameOutput hm h
  obtain ⟨m', hnext, hout⟩ := hsame
  exact ⟨t.withMem m', hnext, rfl, hout⟩

end Sys2Proof.Machine
end

section
/-! SUPPORT. The encoding (R45 to R52, R55): the fields of a command word as numbers, what the decoder
answers for each pattern of W0, and that a decoded command's word is made of its fields. -/

namespace Sys2Proof

open Sys2Proof.Safety

/-! The fields of a command word (R46, R52). -/

theorem toNat_opField (w : Word) : (opField w).toNat = w.toNat % 2 ^ 8 := by
  simp [opField]

theorem toNat_dirField (w : Word) : (dirField w).toNat = w.toNat / 2 ^ 8 % 2 := by
  simp [dirField, Nat.shiftRight_eq_div_pow]

theorem toNat_modeField (w : Word) : (modeField w).toNat = w.toNat / 2 ^ 9 % 8 := by
  simp [modeField, Nat.shiftRight_eq_div_pow]

theorem toNat_padField (w : Word) : (padField w).toNat = w.toNat / 2 ^ 12 % 8 := by
  simp [padField, Nat.shiftRight_eq_div_pow]

theorem toNat_rsvField (w : Word) : (rsvField w).toNat = w.toNat / 2 ^ 15 := by
  have := w.isLt
  simp only [rsvField, BitVec.extractLsb'_toNat, Nat.shiftRight_eq_div_pow]
  omega

theorem opField_eq_iff {w : Word} {op : BitVec 8} : opField w = op ↔ w.toNat % 2 ^ 8 = op.toNat := by
  rw [← toNat_opField, BitVec.toNat_inj]

theorem rsvField_eq_zero {w : Word} : rsvField w = 0 ↔ w.toNat / 2 ^ 15 = 0 := by
  rw [← toNat_rsvField]
  exact BitVec.toNat_inj.symm

/-- PAD, MODE and DIR together are bits 14:8. -/
theorem configurationFields_eq_zero {w : Word} :
    ¬(padField w ≠ 0 ∨ modeField w ≠ 0 ∨ dirField w ≠ 0) ↔ w.toNat / 2 ^ 8 % 2 ^ 7 = 0 := by
  simp only [ne_eq, ← BitVec.toNat_inj, toNat_padField, toNat_modeField, toNat_dirField,
    BitVec.reduceToNat]
  omega

theorem toNat_append_eq_add {m n : Nat} (x : BitVec m) (y : BitVec n) :
    (x ++ y).toNat = x.toNat * 2 ^ n + y.toNat := by
  rw [BitVec.toNat_append, Nat.shiftLeft_eq, Nat.mul_comm, Nat.two_pow_add_eq_or_of_lt y.isLt]

/-- The command word of LOAD as a number, field by field. -/
theorem toNat_loadWord (dir : Direction) (mode pad : BitVec 3) :
    (loadWord dir mode pad).toNat =
      pad.toNat * 2 ^ 12 + mode.toNat * 2 ^ 9 + dir.code.toNat * 2 ^ 8 + 1 := by
  simp only [loadWord, toNat_append_eq_add, BitVec.reduceToNat]
  omega

@[simp] theorem Direction.ofCode_code (dir : Direction) : Direction.ofCode dir.code = dir := by
  cases dir <;> rfl

@[simp] theorem Direction.code_ofCode (b : BitVec 1) : (Direction.ofCode b).code = b := by
  revert b
  decide

theorem Direction.ofCode_eq_decrypt (b : BitVec 1) :
    Direction.ofCode b = .decrypt ↔ b.toNat = 1 := by
  revert b
  decide

/-- Each field of the command word of LOAD is the one it was made of. -/
theorem fields_loadWord (dir : Direction) (mode pad : BitVec 3) :
    opField (loadWord dir mode pad) = 1 ∧ dirField (loadWord dir mode pad) = dir.code ∧
      modeField (loadWord dir mode pad) = mode ∧ padField (loadWord dir mode pad) = pad ∧
      rsvField (loadWord dir mode pad) = 0 := by
  have hw := toNat_loadWord dir mode pad
  have hdir := dir.code.isLt
  have hmode := mode.isLt
  have hpad := pad.isLt
  refine ⟨opField_eq_iff.2 ?_, BitVec.eq_of_toNat_eq ?_, BitVec.eq_of_toNat_eq ?_,
    BitVec.eq_of_toNat_eq ?_, rsvField_eq_zero.2 ?_⟩
  · simp only [BitVec.reduceToNat]
    omega
  · rw [toNat_dirField]
    omega
  · rw [toNat_modeField]
    omega
  · rw [toNat_padField]
    omega
  · omega

/-- A word whose `OP` is 1 and whose `RSV` is zero is made of its fields. -/
theorem loadWord_fields {w : Word} (hop : opField w = 1) (hrsv : rsvField w = 0) :
    loadWord (Direction.ofCode (dirField w)) (modeField w) (padField w) = w := by
  simp only [opField_eq_iff, rsvField_eq_zero, BitVec.reduceToNat] at hop hrsv
  apply BitVec.eq_of_toNat_eq
  rw [toNat_loadWord, Direction.code_ofCode, toNat_dirField, toNat_modeField, toNat_padField]
  omega

/-! What the decoder answers. -/

theorem decode_loadFields {w0 : Word} (hop : opField w0 = 1) (hrsv : rsvField w0 = 0)
    (w1 w2 w3 w4 : Word) :
    decode ⟨w0, w1, w2, w3, w4⟩ =
      .ok (.load (Direction.ofCode (dirField w0)) (modeField w0) (padField w0) w1 w2 w3 w4) := by
  simp [decode, hop, hrsv]

theorem decode_blockWord (w1 w2 w3 w4 : Word) :
    decode ⟨2, w1, w2, w3, w4⟩ = .ok (.block w1 w2 w3) := by
  have h1 : opField 2 ≠ 1 := by decide
  have h2 : opField 2 = 2 := by decide
  have hT : formatT 2 (.block w1 w2 w3) = .ok (.block w1 w2 w3) := rfl
  rw [decode, if_neg h1, if_pos h2, hT]

theorem decode_finalWord (w1 w2 w3 w4 : Word) :
    decode ⟨3, w1, w2, w3, w4⟩ = .ok (.final w1 w2 w3) := by
  have h1 : opField 3 ≠ 1 := by decide
  have h2 : opField 3 ≠ 2 := by decide
  have h3 : opField 3 = 3 := by decide
  have hT : formatT 3 (.final w1 w2 w3) = .ok (.final w1 w2 w3) := rfl
  rw [decode, if_neg h1, if_neg h2, if_pos h3, hT]

/-- The decoder gives an encoded command back (R46, R47). -/
@[simp] theorem decode_encode (i : Instr) : decode (encode i) = .ok i := by
  cases i with
  | load dir mode pad keyAddr keyLen ivAddr ivLen =>
    obtain ⟨hop, hdir, hmode, hpad, hrsv⟩ := fields_loadWord dir mode pad
    rw [encode, decode_loadFields hop hrsv, hdir, hmode, hpad, Direction.ofCode_code]
  | block inAddr inCount outAddr => exact decode_blockWord inAddr inCount outAddr 0
  | final inAddr inCount outAddr => exact decode_finalWord inAddr inCount outAddr 0

/-- Settles O1: the decoder reads from the command word the fields the encoder put there. -/
theorem encodedCommandDecodesToItself : Obligations.EncodedCommandDecodesToItself := decode_encode

/-! The three patterns (R48). -/

/-- The pattern of LOAD in the words of R46: `OP` is 1 and `RSV` is zero. -/
theorem loadPattern_iff (w : Word) : w &&& 0xffff80ff = 1 ↔ opField w = 1 ∧ rsvField w = 0 := by
  constructor
  · intro h
    have hop : opField (w &&& 0xffff80ff) = opField w := by
      rw [opField, BitVec.extractLsb'_and]
      exact BitVec.and_allOnes
    have hrsv : rsvField (w &&& 0xffff80ff) = rsvField w := by
      rw [rsvField, BitVec.extractLsb'_and]
      exact BitVec.and_allOnes
    rw [h] at hop hrsv
    exact ⟨hop.symm, hrsv.symm⟩
  · rintro ⟨hop, hrsv⟩
    rw [← loadWord_fields hop hrsv]
    exact Laws.TableRow.load (Direction.ofCode (dirField w)) (modeField w) (padField w) 0 0 0 0

theorem ne_of_loadPattern {w : Word} (h : w &&& 0xffff80ff = 1) : w ≠ 2 ∧ w ≠ 3 := by
  constructor <;> rintro rfl <;> exact absurd h (by decide)

/-- R55 in its own words is what is left when the three patterns of R48 are taken away. -/
theorem illegalWord_iff (w : Word) :
    IllegalWord w ↔ w &&& 0xffff80ff ≠ 1 ∧ w ≠ 2 ∧ w ≠ 3 := by
  have hlt := w.isLt
  have h2 : w = 2 ↔ w.toNat = 2 := BitVec.toNat_inj.symm
  have h3 : w = 3 ↔ w.toNat = 3 := BitVec.toNat_inj.symm
  simp only [ne_eq, loadPattern_iff, opField_eq_iff, rsvField_eq_zero, BitVec.reduceToNat, h2, h3,
    IllegalWord]
  omega

theorem formatT_error {w : Word} {i : Instr}
    (h : w.toNat / 2 ^ 15 ≠ 0 ∨ w.toNat / 2 ^ 8 % 2 ^ 7 ≠ 0) : ∃ e, formatT w i = .error e := by
  unfold formatT
  split_ifs with hr hc
  · exact ⟨_, rfl⟩
  · exact ⟨_, rfl⟩
  · rw [not_not, rsvField_eq_zero] at hr
    rw [configurationFields_eq_zero] at hc
    omega

theorem decode_of_illegalWord {d : Descriptor} (h : IllegalWord d.w0) :
    ∃ e, decode d = .error e := by
  unfold IllegalWord at h
  unfold decode
  split_ifs with h1 hr h2 h3
  · exact ⟨_, rfl⟩
  · rw [not_not, rsvField_eq_zero] at hr
    simp only [opField_eq_iff, BitVec.reduceToNat] at h1
    omega
  · simp only [opField_eq_iff, BitVec.reduceToNat] at h2
    exact formatT_error (by omega)
  · simp only [opField_eq_iff, BitVec.reduceToNat] at h3
    exact formatT_error (by omega)
  · exact ⟨_, rfl⟩

/-- The decoder by the patterns of R48: a word has one of the three, or is illegal. -/
theorem decode_cases (d : Descriptor) :
    (d.w0 &&& 0xffff80ff = 1 ∧
      decode d = .ok (.load (Direction.ofCode (dirField d.w0)) (modeField d.w0) (padField d.w0)
        d.w1 d.w2 d.w3 d.w4)) ∨
    (d.w0 = 2 ∧ decode d = .ok (.block d.w1 d.w2 d.w3)) ∨
    (d.w0 = 3 ∧ decode d = .ok (.final d.w1 d.w2 d.w3)) ∨
    (IllegalWord d.w0 ∧ ∃ e, decode d = .error e) := by
  obtain ⟨w0, w1, w2, w3, w4⟩ := d
  by_cases h1 : w0 &&& 0xffff80ff = 1
  · obtain ⟨hop, hrsv⟩ := (loadPattern_iff w0).1 h1
    exact .inl ⟨h1, decode_loadFields hop hrsv w1 w2 w3 w4⟩
  by_cases h2 : w0 = 2
  · subst h2
    exact .inr (.inl ⟨rfl, decode_blockWord w1 w2 w3 w4⟩)
  by_cases h3 : w0 = 3
  · subst h3
    exact .inr (.inr (.inl ⟨rfl, decode_finalWord w1 w2 w3 w4⟩))
  have hill : IllegalWord w0 := (illegalWord_iff w0).2 ⟨h1, h2, h3⟩
  exact .inr (.inr (.inr ⟨hill, decode_of_illegalWord hill⟩))

/-- Settles O2: the three patterns and the illegal words exclude each other, and the decoder answers as
`decode_cases` says. -/
theorem decodeSelectsByThreePatterns : Obligations.DecodeSelectsByThreePatterns := by
  intro d
  rcases decode_cases d with ⟨hw, h⟩ | ⟨hw, h⟩ | ⟨hw, h⟩ | ⟨hw, e, h⟩
  · obtain ⟨h2, h3⟩ := ne_of_loadPattern hw
    simp_all
  · simp [h, hw]
  · simp [h, hw]
  · rw [illegalWord_iff] at hw
    obtain ⟨h1, h2, h3⟩ := hw
    simp_all

/-- Settles O3: the fields are those of `decode_cases`, and a word of LOAD's pattern is made of its
fields. -/
theorem operandsAreWholeWordsAndSlices : Obligations.OperandsAreWholeWordsAndSlices := by
  intro d i hi
  rcases decode_cases d with ⟨hw, h⟩ | ⟨hw, h⟩ | ⟨hw, h⟩ | ⟨-, e, h⟩ <;> rw [h] at hi <;> cases hi
  · obtain ⟨hop, hrsv⟩ := (loadPattern_iff d.w0).1 hw
    have hdir : Direction.ofCode (dirField d.w0) = .decrypt ↔ d.w0.getLsbD 8 = true := by
      rw [Direction.ofCode_eq_decrypt, toNat_dirField, BitVec.getLsbD,
        Nat.testBit_eq_decide_div_mod_eq, decide_eq_true_iff]
    exact ⟨hdir, toNat_modeField _, toNat_padField _, rfl, rfl, rfl, rfl,
      by rw [encode, loadWord_fields hop hrsv]⟩
  · exact ⟨rfl, rfl, rfl, by rw [encode, ← hw]⟩
  · exact ⟨rfl, rfl, rfl, by rw [encode, ← hw]⟩

/-- Settles O4: each word has the pattern, or the cause of refusal, that is listed for it. -/
theorem listedCommandWordsDecode : Obligations.ListedCommandWordsDecode := by
  unfold Obligations.ListedCommandWordsDecode
  decide

end Sys2Proof
end

section
/-! SUPPORT. The step on a command of the host (R5, R55, R59): what each event that issues a command
does, and the two steps of a pseudo-command. -/

namespace Sys2Proof.Machine

open Sys2Proof.Safety

theorem step_command {s : State} {d : Descriptor} {rest : List HostEvent}
    (h : s.host = .command d :: rest) : step s = runCommand d { s with host := rest } := by
  rw [step, h]
  rfl

theorem step_commandIfOk {s : State} {d : Descriptor} {rest : List HostEvent}
    (h : s.host = .commandIfOk d :: rest) :
    step s = if s.status = .ok then runCommand d { s with host := rest }
      else .next { s with host := rest } := by
  rw [step, h]
  rfl

@[simp] theorem runCommand_encode (i : Instr) (s : State) : runCommand (encode i) s = exec i s := by
  rw [runCommand, decode_encode]

theorem runCommand_of_illegalWord {d : Descriptor} (h : IllegalWord d.w0) (s : State) :
    runCommand d s = .next (s.raise .usageRefused) := by
  obtain ⟨e, he⟩ := decode_of_illegalWord h
  rw [runCommand, he]

/-- Settles O6: an illegal command is refused, and the refusal writes the response alone. -/
theorem illegalCommandOnlyResponds : Obligations.IllegalCommandOnlyResponds := by
  intro s d rest hhost hill
  rw [step_command hhost, runCommand_of_illegalWord hill]
  rfl

theorem run_succ {s t : State} (h : step s = .next t) (k : Nat) :
    Host.Core.run Sys2Proof.core (k + 1) s = Host.Core.run Sys2Proof.core k t := by
  have hcore : Sys2Proof.core.step s = .next t := h
  simp only [Host.Core.run, hcore]

theorem run_one (s : State) : Host.Core.run Sys2Proof.core 1 s = step s := by
  simp only [Host.Core.run]
  change _ = Sys2Proof.core.step s
  cases Sys2Proof.core.step s <;> rfl

/-- Settles O60: the first step is the LOAD, which leaves the host's sequence alone, and the second is
the FINAL where STATUS is OK. -/
theorem oneShotIssuesFinalOnlyAfterOk : Obligations.OneShotIssuesFinalOnlyAfterOk := by
  intro s t dir mode pad k kl v vl a n o rest hhost hload
  obtain ⟨-, -, hnext, -⟩ := exec_load_frame hload
  have hstep : step s = .next t := by
    rw [step_command hhost, runCommand_encode]
    exact hload
  rw [run_succ hstep, run_one, step_commandIfOk hnext, runCommand_encode]

end Sys2Proof.Machine
end

section
/-! SUPPORT. The invariants of the registers (R25, R54): what makes a state meet them in each phase, and
that every command and every event of the host keeps them. -/

namespace Sys2Proof.Machine

open Sys2Proof.Safety

/-! What makes a state meet the invariants. -/

/-- The codes of the registers are legal by their types (R25 (a), (b)). -/
theorem legalCodes (s : State) : LegalCodes s := by
  refine ⟨?_, ?_, ?_⟩
  · cases s.phase <;> decide
  · cases s.mode <;> decide
  · cases s.pad <;> decide

/-- Without a pipeline only the response is left to ask for. -/
theorem inv_of_unbuilt {t : State} (hphase : t.phase = .unbuilt) (hzero : UnbuiltIsZero t)
    (herr : ErrorCountsZero t) : Inv t := by
  obtain ⟨-, -, -, -, hiv, hlb, hwb, hhas⟩ := hzero hphase
  refine ⟨legalCodes t, hzero, ?_, fun _ => hwb, fun _ => ⟨hiv, hlb⟩, ?_, herr⟩
  · intro h
    rw [hhas] at h
    cases h
  · intro h
    rw [hphase] at h
    cases h

theorem inv_of_ready {t : State} (hphase : t.phase = .ready)
    (hheld : t.hasWb = true → t.dir = .decrypt ∧ t.pad ≠ .none) (hstale : NoStaleBlock t)
    (hecb : EcbIsUnchained t) (herr : ErrorCountsZero t) : Inv t := by
  refine ⟨legalCodes t, ?_, fun h => ⟨hphase, hheld h⟩, hstale, hecb, ?_, herr⟩
  · intro h
    rw [hphase] at h
    cases h
  · intro h
    rw [hphase] at h
    cases h

/-- An error ended the message: it is closed, so IV alone is left to ask for (R136 (a), R137). -/
theorem inv_failMessage {u : State} {st : Status} (hecb : u.mode = .ecb → u.iv = Block.zero) :
    Inv (u.failMessage.respond st 0) :=
  ⟨legalCodes _, fun h => (by cases h), fun h => (by cases h), fun _ => rfl,
    fun hm => ⟨hecb hm, hecb hm⟩, fun _ => ⟨rfl, rfl⟩, fun _ => rfl⟩

/-- A message is closed and its output delivered (R113). -/
theorem inv_closeMessage_deliver {u : State} (hphase : u.phase = .ready)
    (hecb : u.mode = .ecb → u.iv = Block.zero) (a : Nat) (out : List Byte) :
    Inv (u.closeMessage.deliver a out) :=
  inv_of_ready hphase (fun h => by cases h) (fun _ => rfl) (fun h => ⟨hecb h, hecb h⟩)
    (fun h => absurd rfl h)

/-- A response of an error with no bytes keeps what the registers hold. -/
theorem inv_respond_zero {s : State} (st : Status) (h : Inv s) : Inv (s.respond st 0) := by
  obtain ⟨hcodes, hunbuilt, hheld, hstale, hecb, hfailed, -⟩ := h
  exact ⟨hcodes, hunbuilt, hheld, hstale, hecb, hfailed, fun _ => rfl⟩

theorem inv_discard_respond_zero (s : State) (st : Status) : Inv (s.discard.respond st 0) :=
  inv_of_unbuilt rfl (fun _ => ⟨rfl, rfl, rfl, rfl, rfl, rfl, rfl, rfl⟩) (fun _ => rfl)

theorem inv_resetEngine (s : State) : Inv s.resetEngine :=
  inv_of_unbuilt rfl (fun _ => ⟨rfl, rfl, rfl, rfl, rfl, rfl, rfl, rfl⟩) (fun _ => rfl)

/-! BLOCK keeps what the invariants say of LB and of the withheld block. -/

/-- In ECB mode BLOCK leaves LB alone (R81). -/
theorem blockOutput_lb_ecb (c : List Byte) {s : State} (h : s.mode = .ecb) :
    (blockOutput c s).2.lb = s.lb := by
  have hchain : (s.runChain c).2.lb = s.lb := by rw [State.runChain_lb, chain_ecb_lb _ _ _ h]
  unfold blockOutput decryptBlock
  split_ifs
  · rfl
  · exact hchain
  · exact hchain

/-- BLOCK keeps the withheld block, or withholds one on decrypt with padding (R96, R98). -/
theorem blockOutput_withheld (c : List Byte) (s : State) :
    ((blockOutput c s).2.hasWb = s.hasWb ∧ (blockOutput c s).2.wb = s.wb) ∨
    ((blockOutput c s).2.hasWb = true ∧ s.dir = .decrypt ∧ s.pad ≠ .none) := by
  unfold blockOutput decryptBlock
  split_ifs with hd hc
  · exact .inl ⟨rfl, rfl⟩
  · exact .inr ⟨rfl, hd⟩
  · exact .inl ⟨State.runChain_hasWb s c, State.runChain_wb s c⟩

theorem inv_blockOutput_deliver {s : State} (h : Inv s) (hphase : s.phase = .ready) (c : List Byte)
    (a : Nat) (out : List Byte) : Inv ((blockOutput c s).2.deliver a out) := by
  obtain ⟨-, -, hheld, hstale, hecb, -, -⟩ := h
  have hheld' : (blockOutput c s).2.hasWb = true →
      (blockOutput c s).2.dir = .decrypt ∧ (blockOutput c s).2.pad ≠ .none := by
    intro hw
    rw [blockOutput_dir, blockOutput_pad]
    rcases blockOutput_withheld c s with ⟨hb, -⟩ | ⟨-, hd⟩
    · exact (hheld (hb ▸ hw)).2
    · exact hd
  have hstale' : (blockOutput c s).2.hasWb = false → (blockOutput c s).2.wb = Block.zero := by
    intro hw
    rcases blockOutput_withheld c s with ⟨hb, hwb⟩ | ⟨hb, -⟩
    · exact hwb.trans (hstale (hb ▸ hw))
    · rw [hb] at hw
      cases hw
  have hecb' : (blockOutput c s).2.mode = .ecb →
      (blockOutput c s).2.iv = Block.zero ∧ (blockOutput c s).2.lb = Block.zero := by
    intro hm
    rw [blockOutput_mode] at hm
    rw [blockOutput_iv, blockOutput_lb_ecb c hm]
    exact hecb hm
  exact inv_of_ready ((blockOutput_phase c s).trans hphase) hheld' hstale' hecb'
    (fun h => absurd rfl h)

/-! Every command and every event keeps the invariants. -/

theorem exec_inv {i : Instr} {s t : State} (hs : Inv s) (h : exec i s = .next t) : Inv t := by
  have hiv : s.mode = .ecb → s.iv = Block.zero := by
    obtain ⟨-, -, -, -, hecb, -, -⟩ := hs
    exact fun hm => (hecb hm).1
  cases i with
  | load dir mode pad ka kl va vl =>
    rcases exec_load_next h with ⟨-, rfl⟩ | ⟨-, m, p, k, iv, -, hecb, rfl⟩
    · exact inv_discard_respond_zero s.discard _
    · exact inv_of_ready rfl (fun h => by cases h) (fun _ => rfl) (fun hm => ⟨hecb hm, hecb hm⟩)
        (fun h => absurd rfl h)
  | block ia ic oa =>
    rcases exec_block_next h with ⟨-, rfl⟩ | ⟨-, -, rfl⟩ | ⟨r, rfl, hphase, -, -, -, rfl⟩
    · exact inv_respond_zero _ hs
    · exact inv_failMessage hiv
    · exact inv_blockOutput_deliver hs hphase _ _ _
  | final ia ic oa =>
    rcases exec_final_next h with
      ⟨-, rfl⟩ | ⟨-, -, rfl⟩ | ⟨r, rfl, hphase, -, -, ⟨-, rfl⟩ | ⟨out, -, -, rfl⟩⟩
    · exact inv_respond_zero _ hs
    · exact inv_failMessage hiv
    · exact inv_failMessage (by simpa using hiv)
    · exact inv_closeMessage_deliver (by simpa using hphase) (by simpa using hiv) _ _

theorem runCommand_inv {d : Descriptor} {s t : State} (hs : Inv s) (h : runCommand d s = .next t) :
    Inv t := by
  rcases runCommand_cases d s with ⟨e, -, hr⟩ | ⟨i, -, hr⟩ <;> rw [hr] at h
  · cases h
    exact inv_respond_zero _ hs
  · exact exec_inv hs h

/-- The invariants speak of the registers alone, so a state that differs from a reset one in memory and
draws meets them. -/
theorem abandonCommand_inv (d : Descriptor) (s : State) : Inv (abandonCommand d s) := by
  unfold abandonCommand
  cases runCommand d s with
  | next t => exact inv_resetEngine t
  | fault f => exact inv_resetEngine s
  | refused r => exact inv_resetEngine s

theorem hostEvent_inv {e : HostEvent} {s t : State} (hs : Inv s) (h : hostEvent e s = .next t) :
    Inv t := by
  cases e with
  | command d => exact runCommand_inv hs h
  | commandIfOk d =>
    simp only [hostEvent] at h
    split at h
    · exact runCommand_inv hs h
    · cases h
      exact hs
  | store addr bytes =>
    simp only [hostEvent, hostStore] at h
    split at h
    · cases h
      exact hs
    · cases h
  | reset =>
    cases h
    exact inv_resetEngine s
  | resetDuring d =>
    cases h
    exact abandonCommand_inv d s

/-- Settles O54, event by event: an error keeps the pipeline, discards it or closes its message, output
leaves a READY state, and a reset leaves none. -/
theorem stepKeepsTheRegisterInvariants : Obligations.StepKeepsTheRegisterInvariants := by
  intro s t hs h
  unfold step at h
  split at h
  · cases h
    exact hs
  · next rest _ => exact hostEvent_inv (s := { s with host := rest }) hs h

end Sys2Proof.Machine
end

section
/-! SUPPORT. Encryption and decryption undo each other: the rounds run backwards (R73), the mode layer
(R87 (b)), and the padding (R100 to R103, R108). -/

namespace Sys2Proof.Machine

open Sys2Proof.Safety

/-! The block transform backwards (R73). -/

/-- Four words, the window of the rounds. -/
abbrev Window := Word × Word × Word × Word

/-- The rounds on a window. -/
def windowRounds (ks : List Word) (w : Window) : Window := rounds ks w.1 w.2.1 w.2.2.1 w.2.2.2

/-- A window from its last word to its first. -/
def Window.reversed (w : Window) : Window := (w.2.2.2, w.2.2.1, w.2.1, w.1)

theorem windowRounds_append (ks ls : List Word) (w : Window) :
    windowRounds (ks ++ ls) w = windowRounds ls (windowRounds ks w) := by
  induction ks generalizing w with
  | nil => rfl
  | cons k ks ih => exact ih (windowRounds [k] w)

/-- One round on the reversed window takes the round back. -/
theorem windowRounds_singleton_reversed (k : Word) (w : Window) :
    windowRounds [k] (windowRounds [k] w).reversed = w.reversed := by
  obtain ⟨a, b, c, d⟩ := w
  have hxor : d ^^^ c ^^^ b ^^^ k = b ^^^ c ^^^ d ^^^ k := by ac_rfl
  simp [windowRounds, rounds, Window.reversed, hxor]

/-- The rounds with the keys in reverse order, on the reversed window, take the rounds back. -/
theorem windowRounds_reverse (ks : List Word) (w : Window) :
    windowRounds ks.reverse (windowRounds ks w).reversed = w.reversed := by
  induction ks generalizing w with
  | nil => rfl
  | cons k ks ih =>
    have hcons : windowRounds (k :: ks) w = windowRounds ks (windowRounds [k] w) :=
      windowRounds_append [k] ks w
    rw [List.reverse_cons, windowRounds_append, hcons, ih, windowRounds_singleton_reversed]

/-- The words of a block, as a window. -/
def windowOf (b : Block) : Window := (wordOf b 0, wordOf b 1, wordOf b 2, wordOf b 3)

/-- The block that the words of a window make. -/
def blockOfWindow (w : Window) : Block := blockOfWords w.1 w.2.1 w.2.2.1 w.2.2.2

theorem windowOf_blockOfWindow (w : Window) : windowOf (blockOfWindow w) = w := by
  obtain ⟨h0, h1, h2, h3⟩ := wordOf_blockOfWords w.1 w.2.1 w.2.2.1 w.2.2.2
  exact Prod.ext h0 (Prod.ext h1 (Prod.ext h2 h3))

theorem blockOfWindow_windowOf (b : Block) : blockOfWindow (windowOf b) = b := blockOfWords_wordOf b

theorem blockTransform_eq (rk : RoundKeys) (b : Block) :
    blockTransform rk b = blockOfWindow (windowRounds rk.toList (windowOf b)).reversed := rfl

/-- The block transform with the round keys in reverse order is its inverse. -/
theorem blockTransform_reverse (rk : RoundKeys) (b : Block) :
    blockTransform rk.reverse (blockTransform rk b) = b := by
  rw [blockTransform_eq, blockTransform_eq, windowOf_blockOfWindow, Vector.toList_reverse,
    windowRounds_reverse]
  exact blockOfWindow_windowOf b

theorem blockTransform_decrypt_encrypt (key b : Block) :
    blockTransform (keySchedule key .decrypt) (blockTransform (keySchedule key .encrypt) b) = b :=
  blockTransform_reverse (keyExpand key) b

/-! The mode layer backwards (R87 (b)). -/

/-- The pipeline of a configuration and a key. -/
def pipelineOf (mode : Mode) (dir : Direction) (key : Block) : Pipeline :=
  ⟨mode, dir, keySchedule key dir⟩

/-- Decrypting an encrypted block gives it back, and leaves the LB that encrypting it left. -/
theorem chainBlock_decrypt_encrypt (mode : Mode) (key lb b : Block) :
    chainBlock (pipelineOf mode .decrypt key) lb (chainBlock (pipelineOf mode .encrypt key) lb b).1 =
      (b, (chainBlock (pipelineOf mode .encrypt key) lb b).2) := by
  cases mode <;> simp [chainBlock, pipelineOf, blockTransform_decrypt_encrypt]

theorem chainBlocks_decrypt_encrypt (mode : Mode) (key : Block) (bs : List Block) (lb : Block) :
    (chainBlocks (pipelineOf mode .decrypt key) lb
      (chainBlocks (pipelineOf mode .encrypt key) lb bs).1).1 = bs := by
  induction bs generalizing lb with
  | nil => rfl
  | cons b bs ih => simp only [chainBlocks, chainBlock_decrypt_encrypt, ih]

/-- Chain on decrypt, from the LB that encryption started from, gives whole blocks back. -/
theorem chain_decrypt_encrypt (mode : Mode) (key lb : Block) {m : List Byte}
    (hm : m.length % 16 = 0) :
    (chain (pipelineOf mode .decrypt key) lb (chain (pipelineOf mode .encrypt key) lb m).1).1 = m := by
  have hblocks : ∀ bs : List Block, blocksOf ((bytesOf bs).length / 16) (bytesOf bs) = bs := by
    intro bs
    rw [length_bytesOf, Nat.mul_div_cancel_left _ (by decide), blocksOf_bytesOf]
  simp only [chain, hblocks, chainBlocks_decrypt_encrypt]
  exact bytesOf_blocksOf _ (by omega)

/-! The padding comes off (R100 to R103, R108). -/

theorem length_padded (pad : Padding) (m : List Byte) (draw : Nat) :
    (padded pad m (isoDraw draw)).length = ciphertextLength pad m.length := by
  by_cases hp : pad = .none
  · simp [padded, padBytes, ciphertextLength, hp]
  · have hk : padLen m.length = 16 - m.length % 16 := rfl
    rw [padded, List.length_append, length_padBytes draw hp (by omega) (by omega),
      ciphertextLength, if_neg hp]

section LastBlock

variable {pad : Padding} {m draw : List Byte}
  (hlen : (padBytes pad (padLen m.length) draw).length = padLen m.length)

include hlen

/-- The last block of a padded message: the last bytes of the message, then the pad. -/
theorem toList_lastBlock_padded :
    (lastBlock (padded pad m draw)).toList =
      m.drop (m.length + padLen m.length - 16) ++ padBytes pad (padLen m.length) draw := by
  have hk : padLen m.length = 16 - m.length % 16 := rfl
  have hL : (padded pad m draw).length = m.length + padLen m.length := by
    rw [padded, List.length_append, hlen]
  rw [lastBlock, toList_blockOfBytes (by rw [List.length_drop]; omega), hL, padded,
    List.drop_append_of_le_length (by omega)]

/-- Byte `i` of the pad stands at index `16 - padLen + i` of the last block. -/
theorem getD_lastBlock_padded {i : Nat} (hi : 16 - padLen m.length ≤ i) :
    (lastBlock (padded pad m draw)).toList.getD i 0 =
      (padBytes pad (padLen m.length) draw).getD (i - (16 - padLen m.length)) 0 := by
  have hk : padLen m.length = 16 - m.length % 16 := rfl
  have hd : (m.drop (m.length + padLen m.length - 16)).length = 16 - padLen m.length := by
    rw [List.length_drop]
    omega
  rw [toList_lastBlock_padded hlen, List.getD_append_right _ _ _ _ (by omega), hd]

theorem take_padded :
    (padded pad m draw).take ((padded pad m draw).length - padLen m.length) = m := by
  rw [padded, List.length_append, hlen, Nat.add_sub_cancel, List.take_left]

end LastBlock

theorem getElem_fifteen (last : Block) : last[15] = last.toList.getD 15 0 := by
  simp

/-- The scan of the pad finds nothing where every byte from the pad's first is the expected one. -/
theorem badPad_eq_false {last : Block} {expected : Byte} {n : Nat}
    (h : ∀ i, i < n → 16 - padByte last ≤ i → last.toList.getD i 0 = expected) :
    badPad last expected n = false := by
  induction n with
  | zero => rfl
  | succ n ih =>
    rw [badPad, ih fun i hi => h i (by omega), Bool.or_false, Bool.and_eq_false_iff,
      decide_eq_false_iff_not, decide_eq_false_iff_not, not_not]
    by_cases hn : 16 - padByte last ≤ n
    · exact .inr (h n (by omega) hn)
    · exact .inl hn

theorem trailingZeros_append_zeros (bs : List Byte) (k : Nat) :
    trailingZeros (bs ++ List.replicate k 0) = trailingZeros bs + k := by
  rw [trailingZeros, List.reverse_append, List.reverse_replicate,
    List.takeWhile_append_of_pos (by simp), List.length_append, List.length_replicate,
    Nat.add_comm, trailingZeros]

theorem trailingZeros_eq_zero {bs : List Byte} (h : bs.getLast? ≠ some 0) : trailingZeros bs = 0 := by
  rw [← List.head?_reverse] at h
  rw [trailingZeros]
  cases hr : bs.reverse with
  | nil => rfl
  | cons b r =>
    have hb : decide (b = 0) = false := by simpa [hr] using h
    rw [List.takeWhile_cons, hb]
    rfl

/-- The last byte of a pad of the PKCS7 family is the pad's length (R92 to R94). -/
theorem getD_padBytes_last {pad : Padding} {k : Nat} {draw : List Byte} (hp : pad ≠ .none)
    (hz : pad ≠ .zeros) (hk : 1 ≤ k) (hlen : (padBytes pad k draw).length = k) :
    (padBytes pad k draw).getD (k - 1) 0 = BitVec.ofNat 8 k := by
  have hend : ∀ l : List Byte, l.length = k - 1 →
      (l ++ [BitVec.ofNat 8 k]).getD (k - 1) 0 = BitVec.ofNat 8 k := by
    intro l hl
    rw [List.getD_append_right _ _ _ _ hl.le, hl, Nat.sub_self, List.getD_cons_zero]
  cases pad with
  | none => exact absurd rfl hp
  | zeros => exact absurd rfl hz
  | pkcs7 => exact List.getD_replicate _ (by omega)
  | ansix923 => exact hend _ List.length_replicate
  | iso10126 =>
    refine hend _ ?_
    simp only [padBytes, List.length_append, List.length_singleton] at hlen
    omega

/-- Every validator strips the pad that its encoder has added, if the message is one that comes back. -/
theorem validate_padded {pad : Padding} {m draw : List Byte} (hp : pad ≠ .none)
    (hlen : (padBytes pad (padLen m.length) draw).length = padLen m.length)
    (hm : ComesBack pad m) :
    validate pad (lastBlock (padded pad m draw)) = some (padLen m.length) := by
  have hk : padLen m.length = 16 - m.length % 16 := rfl
  by_cases hz : pad = .zeros
  · subst hz
    have htail : (m.drop (m.length + padLen m.length - 16)).getLast? ≠ some 0 := by
      rw [List.getLast?_drop]
      split
      · simp
      · rcases hm with hm | hm
        · omega
        · exact hm
    rw [validate, toList_lastBlock_padded hlen, padBytes, trailingZeros_append_zeros,
      trailingZeros_eq_zero htail, Nat.zero_add]
  · have hbyte := fun i => getD_lastBlock_padded hlen (i := i)
    generalize lastBlock (padded pad m draw) = last at hbyte ⊢
    have hlast : last[15] = BitVec.ofNat 8 (padLen m.length) := by
      rw [getElem_fifteen, hbyte 15 (by omega),
        ← getD_padBytes_last hp hz (by omega) hlen]
      congr 1
      omega
    have hpad : padByte last = padLen m.length := by
      rw [padByte, hlast, BitVec.toNat_ofNat, Nat.mod_eq_of_lt (by omega)]
    have hgood : badLength last = false := by
      rw [badLength, hpad, Bool.or_eq_false_iff, decide_eq_false_iff_not, decide_eq_false_iff_not]
      omega
    cases pad with
    | none => exact absurd rfl hp
    | zeros => exact absurd rfl hz
    | pkcs7 =>
      have hscan : badPad last last[15] 16 = false := badPad_eq_false fun i hi hlow => by
        rw [hpad] at hlow
        rw [hbyte i hlow, hlast]
        exact List.getD_replicate _ (by omega)
      rw [validate, hgood, hscan, hpad]
      rfl
    | ansix923 =>
      have hscan : badPad last 0 15 = false := badPad_eq_false fun i hi hlow => by
        rw [hpad] at hlow
        rw [hbyte i hlow, padBytes, List.getD_append _ _ _ _ (by rw [List.length_replicate]; omega)]
        exact List.getD_replicate _ (by omega)
      rw [validate, hgood, hscan, hpad]
      rfl
    | iso10126 =>
      rw [validate, hgood, hpad]
      rfl

/-! FINAL on a whole message (R97, R99). -/

/-- What FINAL outputs for a whole message on encrypt: Chain of the padded message, where no padding
adds nothing. -/
theorem finalOutput_encrypt {m : List Byte} {s : State} (hd : s.dir = .encrypt) :
    (finalOutput m s).1 =
      some (chain s.pipeline s.lb (padded s.pad m (isoDraw s.draws))).1 := by
  by_cases hp : s.pad = .none
  · have hm : padded .none m (isoDraw s.draws) = m := List.append_nil m
    rw [finalOutput, if_pos hp, hp, hm]
    rfl
  · simp only [finalOutput, hp, if_false, hd, encryptFinal, State.runChain_out]

/-- What FINAL outputs for a whole message on decrypt: the message, if what Chain gives is the message
padded. -/
theorem finalOutput_decrypt_padded {c m : List Byte} {draw : Nat} {s : State}
    (hd : s.dir = .decrypt) (hw : s.hasWb = false) (hm : ComesBack s.pad m)
    (hc : (chain s.pipeline s.lb c).1 = padded s.pad m (isoDraw draw)) :
    (finalOutput c s).1 = some m := by
  by_cases hp : s.pad = .none
  · have hpm : padded .none m (isoDraw draw) = m := List.append_nil m
    rw [hp, hpm] at hc
    rw [finalOutput, if_pos hp]
    exact congrArg some hc
  · have hk : padLen m.length = 16 - m.length % 16 := rfl
    have hlen := length_padBytes draw hp (k := padLen m.length) (by omega) (by omega)
    have hfull : fullTail c s = padded s.pad m (isoDraw draw) := by
      simp only [fullTail, State.withheld, hw, Bool.false_eq_true, if_false, List.nil_append,
        State.runChain_out, hc]
    have hne : fullTail c s ≠ [] := by
      rw [hfull, ← List.length_pos_iff, padded, List.length_append, hlen]
      omega
    rw [finalOutput_decrypt hd hp hne, hfull, validate_padded hp hlen hm, Option.map_some,
      take_padded hlen]

end Sys2Proof.Machine
end

section
/-! SUPPORT. The round trip through the machine (R59, R115): what the two commands of a pseudo-command
do together, and that DECRYPT undoes ENCRYPT. -/

namespace Sys2Proof.Machine

open Sys2Proof.Safety

/-! LOAD and FINAL where nothing goes wrong. -/

/-- The key at an address of memory. -/
def keyFrom (mem : Memory) (addr : Word) : Block := blockOfBytes (mem.readBytes addr.toNat 16)

/-- The IV that LOAD takes: the bytes at an address in CBC mode, zero in ECB mode (R111). -/
def ivFrom (mem : Memory) (mode : Mode) (addr : Word) : Block :=
  match mode with
  | .ecb => blockOfBytes (List.replicate 16 0)
  | .cbc => blockOfBytes (mem.readBytes addr.toNat 16)

/-- The state that LOAD leaves where nothing goes wrong (R111). -/
def State.loaded (s : State) (dir : Direction) (mode : Mode) (pad : Padding) (ka va : Word) : State :=
  (s.discard.build dir mode pad (keyFrom s.mem ka) (ivFrom s.mem mode va)).respond .ok 0

theorem exec_load_loaded {dir : Direction} {modeBits padBits : BitVec 3} {mode : Mode} {pad : Padding}
    {ka kl va vl : Word} {s : State}
    (hconf : loadConfiguration modeBits padBits kl vl = some (mode, pad))
    (hk : admits s.platform .read ka.toNat 16 = true)
    (hv : mode = .cbc → admits s.platform .read va.toNat 16 = true) :
    exec (.load dir modeBits padBits ka kl va vl) s = .next (s.loaded dir mode pad ka va) := by
  have hkey : s.discard.memRead ka.toNat 16 = .ok (s.mem.readBytes ka.toNat 16) :=
    State.memRead_eq_ok.2 ⟨hk, rfl⟩
  cases mode with
  | ecb =>
    have hiv : s.discard.readIv .ecb va.toNat = .ok (List.replicate 16 0) := rfl
    simp only [exec, execLoad, hconf, hkey, hiv]
    rfl
  | cbc =>
    have hiv : s.discard.readIv .cbc va.toNat = .ok (s.mem.readBytes va.toNat 16) :=
      State.memRead_eq_ok.2 ⟨hv rfl, rfl⟩
    simp only [exec, execLoad, hconf, hkey, hiv]
    rfl

theorem exec_final_output {ia ic oa : Word} {s : State} {out : List Byte} (hp : s.phase = .ready)
    (hb : ¬FinalCountFault s ic.toNat) (hr : admits s.platform .read ia.toNat ic.toNat = true)
    (ho : (finalOutput (s.mem.readBytes ia.toNat ic.toNat) s).1 = some out)
    (hw : admits s.platform .write oa.toNat out.length = true) :
    exec (.final ia ic oa) s = .next
      ((finalOutput (s.mem.readBytes ia.toNat ic.toNat) s).2.closeMessage.deliver oa.toNat out) := by
  rw [← badFinalCount_iff, Bool.not_eq_true] at hb
  simp [exec, execFinal, hp, hb, State.memRead, hr, State.reserve, outputLength_some ho, hw, ho]

theorem exec_final_badCount {ia ic oa : Word} {s : State} (hp : s.phase = .ready)
    (hb : FinalCountFault s ic.toNat) :
    exec (.final ia ic oa) s = .next (s.raise .usageInMessage) := by
  rw [← badFinalCount_iff] at hb
  simp [exec, execFinal, hp, hb]

/-! A pseudo-command whose LOAD succeeds. -/

/-- The state with another sequence of host events. -/
def State.withHost (s : State) (events : List HostEvent) : State := { s with host := events }

section OneShot

variable {s : State} {dir : Direction} {mode : Mode} {pad : Padding} {k v a n o : Word}
  {rest : List HostEvent}
  (hhost : s.host = oneShot dir (modeCode mode) (paddingCode pad) k 16 v 16 a n o ++ rest)
  (hk : admits s.platform .read k.toNat 16 = true)
  (hv : mode = .cbc → admits s.platform .read v.toNat 16 = true)

include hhost hk hv

theorem oneShot_runs_final :
    Host.Core.run Sys2Proof.core 2 s =
      exec (.final a n o) ((s.withHost rest).loaded dir mode pad k v) := by
  have hconf := loadConfiguration_eq_some mode pad 16 fun _ => rfl
  rw [oneShotIssuesFinalOnlyAfterOk s _ dir _ _ k 16 v 16 a n o rest hhost
    (exec_load_loaded hconf hk hv)]
  exact if_pos rfl

/-- A pseudo-command completes with the bytes its FINAL outputs. -/
theorem oneShot_completes {out : List Byte}
    (hn : ¬FinalCountFault ((s.withHost rest).loaded dir mode pad k v) n.toNat)
    (ha : admits s.platform .read a.toNat n.toNat = true)
    (ho : (finalOutput (s.mem.readBytes a.toNat n.toNat)
      ((s.withHost rest).loaded dir mode pad k v)).1 = some out)
    (hw : admits s.platform .write o.toNat out.length = true) :
    ∃ t, Host.Core.run Sys2Proof.core 2 s = .next t ∧ t.status = .ok ∧
      t.count = BitVec.ofNat 32 out.length ∧ t.host = rest ∧ t.platform = s.platform ∧
      t.mem = s.mem.writeBytes o.toNat out := by
  rw [oneShot_runs_final hhost hk hv]
  exact ⟨_, exec_final_output rfl hn ha ho hw, rfl, rfl, finalOutput_host _ _,
    finalOutput_platform _ _, congrArg (Memory.writeBytes · o.toNat out) (finalOutput_mem _ _)⟩

theorem oneShot_badCount (hn : FinalCountFault ((s.withHost rest).loaded dir mode pad k v) n.toNat) :
    ∃ t, Host.Core.run Sys2Proof.core 2 s = .next t ∧ t.status = .usageError ∧ t.count = 0 ∧
      t.host = rest ∧ t.mem = s.mem := by
  rw [oneShot_runs_final hhost hk hv]
  exact ⟨_, exec_final_badCount rfl hn, rfl, rfl, rfl, rfl⟩

end OneShot

/-! The ciphertext. -/

theorem ciphertextLength_mod {pad : Padding} {m : List Byte} (hm : ComesBack pad m) :
    ciphertextLength pad m.length % 16 = 0 := by
  unfold ciphertextLength
  split
  · next hp =>
    subst hp
    exact hm
  · unfold padLen
    omega

theorem le_ciphertextLength (pad : Padding) (n : Nat) : n ≤ ciphertextLength pad n := by
  unfold ciphertextLength
  split <;> omega

/-- What ENCRYPT makes of a message, with the key and the IV it finds in memory. -/
def ciphertext (mem : Memory) (mode : Mode) (pad : Padding) (ka va : Word) (m : List Byte)
    (draw : Nat) : List Byte :=
  (chain (pipelineOf mode .encrypt (keyFrom mem ka)) (ivFrom mem mode va)
    (padded pad m (isoDraw draw))).1

theorem length_ciphertext (mem : Memory) (mode : Mode) {pad : Padding} (ka va : Word) {m : List Byte}
    (draw : Nat) (hm : ComesBack pad m) :
    (ciphertext mem mode pad ka va m draw).length = ciphertextLength pad m.length := by
  have hmod := ciphertextLength_mod hm
  rw [ciphertext, length_chain, length_padded]
  omega

/-- ENCRYPT, as its FINAL finds the state. -/
theorem finalOutput_loaded_encrypt (s : State) (mode : Mode) (pad : Padding) (ka va : Word)
    (m : List Byte) : (finalOutput m (s.loaded .encrypt mode pad ka va)).1 =
      some (ciphertext s.mem mode pad ka va m (s.draws + 1)) :=
  finalOutput_encrypt rfl

/-- DECRYPT, as its FINAL finds the state, with the key and the IV that ENCRYPT has found. -/
theorem finalOutput_loaded_decrypt {s : State} {mem : Memory} {mode : Mode} {pad : Padding}
    {ka va : Word} {m : List Byte} (draw : Nat) (hkey : keyFrom s.mem ka = keyFrom mem ka)
    (hiv : ivFrom s.mem mode va = ivFrom mem mode va) (hm : ComesBack pad m) :
    (finalOutput (ciphertext mem mode pad ka va m draw) (s.loaded .decrypt mode pad ka va)).1 =
      some m := by
  have hmod : (padded pad m (isoDraw draw)).length % 16 = 0 := by
    rw [length_padded]
    exact ciphertextLength_mod hm
  refine finalOutput_decrypt_padded (draw := draw) rfl rfl hm ?_
  rw [ciphertext, ← hkey, ← hiv]
  exact chain_decrypt_encrypt mode (keyFrom s.mem ka) (ivFrom s.mem mode va) hmod

/-! Key and IV outside the range of a store. -/

theorem keyFrom_writeBytes {mem : Memory} {addr : Nat} {out : List Byte} {ka : Word}
    (h : ∀ x, InRange addr out.length x → ¬InRange ka.toNat 16 x) :
    keyFrom (mem.writeBytes addr out) ka = keyFrom mem ka := by
  refine congrArg blockOfBytes (Memory.readBytes_congr fun b hlo hhi => ?_)
  exact Memory.read_writeBytes_outside mem addr out fun hin => h b hin ⟨hlo, hhi⟩

theorem ivFrom_writeBytes {mem : Memory} {addr : Nat} {out : List Byte} {mode : Mode} {va : Word}
    (h : ∀ x, InRange addr out.length x → mode = .cbc → ¬InRange va.toNat 16 x) :
    ivFrom (mem.writeBytes addr out) mode va = ivFrom mem mode va := by
  cases mode with
  | ecb => rfl
  | cbc => exact keyFrom_writeBytes fun x hx => h x hx rfl

/-! The two directions. -/

theorem encrypt_completes {s : State} {mode : Mode} {pad : Padding} {k v a n o : Word}
    {rest : List HostEvent} {m : List Byte} {c : Nat} (hmsg : m = s.mem.readBytes a.toNat n.toNat)
    (hc : c = ciphertextLength pad n.toNat)
    (hhost : s.host = oneShot .encrypt (modeCode mode) (paddingCode pad) k 16 v 16 a n o ++ rest)
    (hk : admits s.platform .read k.toNat 16 = true)
    (hv : mode = .cbc → admits s.platform .read v.toNat 16 = true)
    (hm : ComesBack pad m) (hmax : c ≤ 2 ^ 32 - 17)
    (ha : admits s.platform .read a.toNat n.toNat = true)
    (hw : admits s.platform .write o.toNat c = true) :
    ∃ t, Host.Core.run Sys2Proof.core 2 s = .next t ∧ t.status = .ok ∧
      t.count = BitVec.ofNat 32 c ∧ t.host = rest ∧ t.platform = s.platform ∧
      t.mem = s.mem.writeBytes o.toNat (ciphertext s.mem mode pad k v m (s.draws + 1)) := by
  have hlen := length_ciphertext s.mem mode k v (s.draws + 1) hm
  have hmod := ciphertextLength_mod hm
  have hle := le_ciphertextLength pad n.toNat
  subst hmsg hc
  rw [Memory.length_readBytes] at hlen hmod
  have hn : ¬FinalCountFault ((s.withHost rest).loaded .encrypt mode pad k v) n.toNat := by
    rintro (hbig | ⟨hd | hp, hn⟩)
    · omega
    · cases hd
    · change pad = .none at hp
      rw [ciphertextLength, if_pos hp] at hmod
      exact hn hmod
  rw [← hlen] at hw ⊢
  exact oneShot_completes hhost hk hv hn ha (finalOutput_loaded_encrypt _ mode pad k v _) hw

theorem decrypt_completes {s : State} {mem : Memory} {mode : Mode} {pad : Padding}
    {k v a n o : Word} {rest : List HostEvent} {m : List Byte} {draw : Nat}
    (hhost : s.host = oneShot .decrypt (modeCode mode) (paddingCode pad) k 16 v 16 a n o ++ rest)
    (hk : admits s.platform .read k.toNat 16 = true)
    (hv : mode = .cbc → admits s.platform .read v.toNat 16 = true)
    (hkey : keyFrom s.mem k = keyFrom mem k) (hiv : ivFrom s.mem mode v = ivFrom mem mode v)
    (hread : s.mem.readBytes a.toNat n.toNat = ciphertext mem mode pad k v m draw)
    (hm : ComesBack pad m) (hmax : n.toNat ≤ 2 ^ 32 - 17)
    (ha : admits s.platform .read a.toNat n.toNat = true)
    (hw : admits s.platform .write o.toNat m.length = true) :
    ∃ t, Host.Core.run Sys2Proof.core 2 s = .next t ∧ t.status = .ok ∧
      t.count = BitVec.ofNat 32 m.length ∧ t.host = rest ∧ t.platform = s.platform ∧
      t.mem = s.mem.writeBytes o.toNat m := by
  have hmod : n.toNat % 16 = 0 := by
    rw [← s.mem.length_readBytes n.toNat a.toNat, hread, length_ciphertext mem mode k v draw hm]
    exact ciphertextLength_mod hm
  have hn : ¬FinalCountFault ((s.withHost rest).loaded .decrypt mode pad k v) n.toNat := by
    rintro (hbig | ⟨-, hn⟩)
    · omega
    · exact hn hmod
  have hout := finalOutput_loaded_decrypt (s := s.withHost rest) draw hkey hiv hm
  rw [← hread] at hout
  exact oneShot_completes hhost hk hv hn ha hout hw

theorem getD_readBytes (mem : Memory) (addr : Nat) {n i : Nat} (h : i < n) :
    (mem.readBytes addr n).getD i 0 = mem.read (addr + i) := by
  rw [List.getD_eq_getElem?_getD, mem.getElem?_readBytes h, Option.getD_some]

/-- Settles O52: ENCRYPT stores the ciphertext, and DECRYPT reads it with the same key and IV and stores
the message. Without padding a length that is no multiple of 16 is a bad count for FINAL. -/
theorem encryptThenDecryptReturnsTheMessage :
    Obligations.EncryptThenDecryptReturnsTheMessage := by
  intro s mode pad k v a n o p rest c hc hk hv
  refine ⟨fun hm hmax ha hwo hro hwp hapart hhost => ?_, fun hp hn hhost => ?_⟩
  · obtain ⟨u, hrun, hstatus, hcount, hnext, hplatform, hmem⟩ :=
      encrypt_completes rfl hc hhost hk hv hm hmax ha hwo
    have hlen := length_ciphertext s.mem mode k v (s.draws + 1) hm
    rw [Memory.length_readBytes, ← hc] at hlen
    have hc32 : (BitVec.ofNat 32 c).toNat = c := Nat.mod_eq_of_lt (by omega)
    have hread : u.mem.readBytes o.toNat (BitVec.ofNat 32 c).toNat =
        ciphertext s.mem mode pad k v (s.mem.readBytes a.toNat n.toNat) (s.draws + 1) := by
      rw [hc32, hmem, ← hlen]
      exact Memory.readBytes_writeBytes _ _ _
    have hkey : keyFrom u.mem k = keyFrom s.mem k := by
      rw [hmem]
      exact keyFrom_writeBytes fun x hx => (hapart x (hlen ▸ hx)).1
    have hiv : ivFrom u.mem mode v = ivFrom s.mem mode v := by
      rw [hmem]
      exact ivFrom_writeBytes fun x hx => (hapart x (hlen ▸ hx)).2
    rw [← hplatform] at hk hv hro hwp
    obtain ⟨t, hrun', hstatus', hcount', hnext', -, hmem'⟩ :=
      decrypt_completes hnext hk hv hkey hiv hread hm (by rwa [hc32]) (by rwa [hc32])
        (by rwa [Memory.length_readBytes])
    refine ⟨u, t, hrun, hstatus, by rw [hcount, hc32], hrun', hstatus', ?_, hnext', fun i hi => ?_⟩
    · rw [hcount', Memory.length_readBytes, BitVec.ofNat_toNat, BitVec.setWidth_eq]
    · obtain ⟨hstored, -⟩ :=
        stored_writeBytes u.mem p.toNat (s.mem.readBytes a.toNat n.toNat)
      rw [hmem', hstored i (by rwa [Memory.length_readBytes]), getD_readBytes _ _ hi]
  · exact oneShot_badCount hhost hk hv (.inr ⟨.inr hp, hn⟩)

end Sys2Proof.Machine
end

section
/-! SUPPORT. The maps of the SM4 core (R60, R64 to R66): the S-box and its inverse, `tau` lane by lane,
and the rotation with the linear maps made of it. -/

namespace Sys2Proof.Machine

/-! The S-box backwards (R60). -/

/-- The rows of the inverse of the S-box, laid out as those of the S-box are. -/
def inverseSboxRows : List (BitVec 128) :=
  [0x716c7ab8160f1e4135ebd02ae4ac625a,
   0xcdc8db1a0a8e0846f04b96c132a060cc,
   0xf76d69aa61681b760ca914100ed8a3b7,
   0x9bd29a28955f79b286fef46b4a06fb3e,
   0x84cb212b19b37240ff1ce35b78f6ae4e,
   0x22bf77ad29975d736549cebeca9263fa,
   0xa78d2f6455e8a51150e1ba51bdbcedaf,
   0x5c54bb45d93c13e66ef827d66af2e7c7,
   0x3852a448ef4d1d6fd3e082579dc0b63d,
   0x0124c3993a37e5e2261f1294205e7f74,
   0x7c8f678893d43f424f3318ab2e9891c2,
   0xdf9e5331de870907dce947c4c6d71581,
   0xa8d10b177decee857e34a6fd04d58b2d,
   0xda66837570b000fccfc956b1f5c5b439,
   0x9005a29f30dd4c7b36028059f32cf925,
   0xf1ea8a44239ca189588c3b0d43b503b9]

/-- The byte that the S-box takes to `y`. -/
def inverseSbox (y : Byte) : Byte :=
  (inverseSboxRows.getD (y.toNat / 16) 0).extractLsb' (8 * (15 - y.toNat % 16)) 8

theorem inverseSbox_sbox : ∀ x : Byte, inverseSbox (sbox x) = x := by decide +kernel

theorem sbox_injective : Function.Injective sbox := Function.LeftInverse.injective inverseSbox_sbox

/-! `tau` lane by lane (R64). -/

theorem byteOf_eq_ofNat (w : Word) (k : Nat) :
    byteOf w k = BitVec.ofNat 8 (w.toNat / 2 ^ (8 * (3 - k))) := by
  apply BitVec.eq_of_toNat_eq
  rw [byteOf, BitVec.extractLsb'_toNat, Nat.shiftRight_eq_div_pow, BitVec.toNat_ofNat]

/-- Appending a byte shifts a number by a byte and adds. -/
theorem toNat_append_byte {n : Nat} (x : BitVec n) (b : Byte) :
    (x ++ b).toNat = x.toNat * 2 ^ 8 + b.toNat := by
  rw [BitVec.toNat_append, ← Nat.shiftLeft_add_eq_or_of_lt b.isLt, Nat.shiftLeft_eq]

theorem toNat_be32 (a b c d : Byte) :
    (be32 a b c d).toNat = a.toNat * 2 ^ 24 + b.toNat * 2 ^ 16 + c.toNat * 2 ^ 8 + d.toNat := by
  rw [be32, toNat_append_byte, toNat_append_byte, toNat_append_byte]
  omega

/-- Lane `k` of `tau x` is the S-box of lane `k` of `x`. -/
theorem byteOf_tau (x : Word) : ∀ k : Fin 4, byteOf (tau x) k.1 = sbox (byteOf x k.1) := by
  obtain ⟨h0, h1, h2, h3⟩ := byteOf_be32 (sbox (byteOf x 0)) (sbox (byteOf x 1))
    (sbox (byteOf x 2)) (sbox (byteOf x 3))
  intro k
  fin_cases k
  · exact h0
  · exact h1
  · exact h2
  · exact h3

/-- Words with equal bytes in every lane are equal. -/
theorem word_eq_of_byteOf_eq {x y : Word} (h : ∀ k : Fin 4, byteOf x k.1 = byteOf y k.1) : x = y := by
  rw [← be32_bytes x, ← be32_bytes y]
  exact congr (congr (congr (congrArg be32 (h 0)) (h 1)) (h 2)) (h 3)

theorem tau_injective : Function.Injective tau := by
  intro x y hxy
  refine word_eq_of_byteOf_eq fun k => ?_
  apply sbox_injective
  rw [← byteOf_tau, ← byteOf_tau, hxy]

/-- Settles O31: each lane of `tau` is read off as a byte of the number, and distinct words differ in a
lane, where the S-box keeps them apart. -/
theorem tauIsABijectionByLanes : Obligations.TauIsABijectionByLanes := by
  refine ⟨fun x => ?_, Finite.injective_iff_bijective.mp tau_injective⟩
  rw [tau, toNat_be32, byteOf_eq_ofNat, byteOf_eq_ofNat, byteOf_eq_ofNat, byteOf_eq_ofNat]
  norm_num

/-! The rotation and the linear maps (R8, R65, R66). -/

/-- The bits that a rotation brings round stand below those it shifts up, so or is a sum. -/
theorem toNat_rotl (w : Word) {n : Nat} (hn : n < 32) :
    (rotl w n).toNat = (w.toNat * 2 ^ n + w.toNat / 2 ^ (32 - n)) % 2 ^ 32 := by
  have hpow : 2 ^ 32 = 2 ^ (32 - n) * 2 ^ n := by rw [← Nat.pow_add, Nat.sub_add_cancel hn.le]
  have hlow : w.toNat / 2 ^ (32 - n) < 2 ^ n := by
    rw [Nat.div_lt_iff_lt_mul (Nat.two_pow_pos _), Nat.mul_comm, ← hpow]
    exact w.isLt
  have hhigh : w.toNat * 2 ^ n % 2 ^ 32 = w.toNat % 2 ^ (32 - n) * 2 ^ n := by
    rw [hpow, Nat.mul_mod_mul_right]
  have hor : (rotl w n).toNat = w.toNat * 2 ^ n % 2 ^ 32 + w.toNat / 2 ^ (32 - n) := by
    rw [rotl, BitVec.toNat_rotateLeft, Nat.mod_eq_of_lt hn, Nat.shiftLeft_eq,
      Nat.shiftRight_eq_div_pow, hhigh, ← Nat.shiftLeft_eq, Nat.shiftLeft_add_eq_or_of_lt hlow]
  rw [← Nat.mod_eq_of_lt (rotl w n).isLt, hor, Nat.mod_add_mod]

theorem rotl_xor (a b : Word) (n : Nat) : rotl (a ^^^ b) n = rotl a n ^^^ rotl b n := by
  apply BitVec.eq_of_getLsbD_eq
  intro i hi
  by_cases hr : i < n % 32 <;> simp [rotl, hr, hi]

theorem mapL_xor (a b : Word) : mapL (a ^^^ b) = mapL a ^^^ mapL b := by
  simp only [mapL, rotl_xor]
  ac_rfl

theorem mapLp_xor (a b : Word) : mapLp (a ^^^ b) = mapLp a ^^^ mapLp b := by
  simp only [mapLp, rotl_xor]
  ac_rfl

/-- Settles O32: the rotation is `toNat_rotl`, linearity comes from it bit by bit, and the fixed points
and printed values are computed. -/
theorem rotationAndLinearMaps : Obligations.RotationAndLinearMaps :=
  ⟨fun w _ _ hn => toNat_rotl w hn, fun _ => rfl, fun _ => rfl,
    fun a b => ⟨mapL_xor a b, mapLp_xor a b⟩, by decide, by decide⟩

end Sys2Proof.Machine
end

section
/-! SUPPORT. The word sequences of the SM4 core (R69, R71, R72): the key schedule and the rounds are one
recurrence, and the engine's four working registers hold a window of it. -/

namespace Sys2Proof.Machine

/-! The recurrence that the key schedule and the rounds share. -/

/-- One step of the recurrence `W[n+4] = W[n] xor f(W[n+1] xor W[n+2] xor W[n+3] xor k)`, on the window
of the last four words. -/
def Window.next (f : Word → Word) (k : Word) (w : Window) : Window :=
  (w.2.1, w.2.2.1, w.2.2.2, w.1 ^^^ f (w.2.1 ^^^ w.2.2.1 ^^^ w.2.2.2 ^^^ k))

/-- The window after `n` steps, step `i` with the constant `k i`. -/
def windowAt (f : Word → Word) (k : Nat → Word) (w : Window) : Nat → Window
  | 0 => w
  | n + 1 => (windowAt f k w n).next f (k n)

/-- The words of the recurrence that starts with the words of `w`. -/
def wordSeq (f : Word → Word) (k : Nat → Word) (w : Window) (n : Nat) : Word :=
  (windowAt f k w n).1

theorem windowAt_eq (f : Word → Word) (k : Nat → Word) (w : Window) (n : Nat) :
    windowAt f k w n = (wordSeq f k w n, wordSeq f k w (n + 1), wordSeq f k w (n + 2),
      wordSeq f k w (n + 3)) := rfl

theorem wordSeq_add_four (f : Word → Word) (k : Nat → Word) (w : Window) (n : Nat) :
    wordSeq f k w (n + 4) = wordSeq f k w n ^^^
      f (wordSeq f k w (n + 1) ^^^ wordSeq f k w (n + 2) ^^^ wordSeq f k w (n + 3) ^^^ k n) := rfl

/-- The first step can be taken off the front. -/
theorem windowAt_succ_front (f : Word → Word) (k : Nat → Word) (w : Window) (n : Nat) :
    windowAt f k w (n + 1) = windowAt f (fun i => k (i + 1)) (w.next f (k 0)) n := by
  induction n with
  | zero => rfl
  | succ n ih => exact congrArg (Window.next f (k (n + 1))) ih

theorem wordSeq_succ_front (f : Word → Word) (k : Nat → Word) (w : Window) (n : Nat) :
    wordSeq f k w (n + 1) = wordSeq f (fun i => k (i + 1)) (w.next f (k 0)) n :=
  congrArg Prod.fst (windowAt_succ_front f k w n)

/-! The key schedule (R69, R70). -/

/-- `expandFrom` lists the words of the recurrence after the first four. -/
theorem getElem_expandFrom (cs : List Word) (w : Window) (i : Nat)
    (hi : i < (expandFrom cs w.1 w.2.1 w.2.2.1 w.2.2.2).length) :
    (expandFrom cs w.1 w.2.1 w.2.2.1 w.2.2.2)[i] = wordSeq mapTp (cs.getD · 0) w (i + 4) := by
  induction cs generalizing w i with
  | nil => exact absurd hi (Nat.not_lt_zero i)
  | cons c cs ih =>
    cases i with
    | zero => rfl
    | succ i =>
      rw [wordSeq_succ_front]
      exact ih (w.next mapTp c) i (Nat.lt_of_succ_lt_succ hi)

/-- The first four words of K: the key's words exclusive-or FK (R69). -/
def keyWindow (key : Block) : Window :=
  (wordOf key 0 ^^^ fk[0], wordOf key 1 ^^^ fk[1], wordOf key 2 ^^^ fk[2], wordOf key 3 ^^^ fk[3])

theorem getElem_keyExpand (key : Block) (i : Fin 32) :
    (keyExpand key)[i] = wordSeq mapTp (ck.getD · 0) (keyWindow key) (i.1 + 4) :=
  getElem_expandFrom ck (keyWindow key) i.1 (by rw [expandFrom_length]; exact i.isLt)

/-- Settles O33: K is the recurrence from the masked words of the key. -/
theorem keyExpandFollowsTheRecurrence : Obligations.KeyExpandFollowsTheRecurrence := by
  intro key
  refine ⟨wordSeq mapTp (ck.getD · 0) (keyWindow key), fun j => ?_,
    fun i => ⟨wordSeq_add_four .., getElem_keyExpand key i⟩⟩
  fin_cases j <;> rfl

/-- Settles O34: for decryption the schedule is the reversed list. -/
theorem keyScheduleOrder : Obligations.KeyScheduleOrder :=
  fun _ r => ⟨rfl, Vector.getElem_reverse r.isLt⟩

/-! The rounds (R71). -/

/-- The words X of the rounds on a block (R71). -/
def roundWord (rk : RoundKeys) (b : Block) : Nat → Word :=
  wordSeq mapT (rk.toList.getD · 0) (windowOf b)

theorem roundWord_add_four (rk : RoundKeys) (b : Block) (r : Fin 32) :
    roundWord rk b (r.1 + 4) = roundWord rk b r.1 ^^^ mapT (roundWord rk b (r.1 + 1) ^^^
      roundWord rk b (r.1 + 2) ^^^ roundWord rk b (r.1 + 3) ^^^ rk[r]) := by
  have hkey : rk.toList.getD r.1 0 = rk[r] := by simp
  rw [← hkey]
  exact wordSeq_add_four ..

theorem roundWord_of_lt_four (rk : RoundKeys) (b : Block) (j : Fin 4) :
    roundWord rk b j.1 = wordOf b j := by
  fin_cases j <;> rfl

/-- The rounds end on the window after as many steps as there are keys. -/
theorem windowRounds_eq_windowAt (ks : List Word) (w : Window) :
    windowRounds ks w = windowAt mapT (ks.getD · 0) w ks.length := by
  induction ks generalizing w with
  | nil => rfl
  | cons k ks ih =>
    rw [List.length_cons, windowAt_succ_front]
    exact ih (w.next mapT k)

/-- The block transform outputs the last four words of X in reverse order. -/
theorem blockTransform_eq_roundWord (rk : RoundKeys) (b : Block) :
    blockTransform rk b = blockOfWords (roundWord rk b 35) (roundWord rk b 34) (roundWord rk b 33)
      (roundWord rk b 32) := by
  rw [blockTransform_eq, windowRounds_eq_windowAt, Vector.length_toList, windowAt_eq]
  rfl

/-- Settles O35: X is the recurrence from the words of the block. -/
theorem blockTransformFollowsTheRounds : Obligations.BlockTransformFollowsTheRounds := by
  intro rk b
  refine ⟨roundWord rk b, roundWord_of_lt_four rk b, roundWord_add_four rk b, fun j => ?_⟩
  obtain ⟨h0, h1, h2, h3⟩ := wordOf_blockOfWords (roundWord rk b 35) (roundWord rk b 34)
    (roundWord rk b 33) (roundWord rk b 32)
  rw [blockTransform_eq_roundWord]
  fin_cases j
  · exact h0
  · exact h1
  · exact h2
  · exact h3

/-! The rounds in place (R72). -/

/-- Before round `r` the working registers hold words `r` to `r + 3` of X, word `m` in register
`m mod 4`. -/
def HoldsWindow (rk : RoundKeys) (b : Block) (r : Nat) (x : Vector Word 4) : Prop :=
  ∀ m, r ≤ m → m < r + 4 → x[m % 4]'(Nat.mod_lt m (by decide)) = roundWord rk b m

theorem holdsWindow_start (rk : RoundKeys) (b : Block) :
    HoldsWindow rk b 0 #v[wordOf b 0, wordOf b 1, wordOf b 2, wordOf b 3] := by
  intro m _ hm
  have h := roundWord_of_lt_four rk b ⟨m, by omega⟩
  interval_cases m <;> exact h.symm

/-- Round `r` replaces the oldest word of the window by the next word of X, in the same register. -/
theorem HoldsWindow.step {rk : RoundKeys} {b : Block} {r : Fin 32} {x : Vector Word 4}
    (h : HoldsWindow rk b r.1 x) : HoldsWindow rk b (r.1 + 1) (roundInPlace rk x r) := by
  intro m hlo hhi
  by_cases hm : m = r.1 + 4
  · subst hm
    simp only [roundInPlace, Nat.mod_add_mod, Nat.add_mod_right, Vector.getElem_set_self]
    rw [h r.1 (by omega) (by omega), h (r.1 + 1) (by omega) (by omega),
      h (r.1 + 2) (by omega) (by omega), h (r.1 + 3) (by omega) (by omega)]
    exact (roundWord_add_four rk b r).symm
  · rw [roundInPlace, Vector.getElem_set_ne _ _ (by omega)]
    exact h m (by omega) (by omega)

theorem holdsWindow_foldl (rk : RoundKeys) (b : Block) {x : Vector Word 4} (n : Nat)
    (h : HoldsWindow rk b 0 x) (hn : n ≤ 32) :
    HoldsWindow rk b n (((List.finRange 32).take n).foldl (roundInPlace rk) x) := by
  induction n with
  | zero => exact h
  | succ n ih =>
    rw [List.take_succ_eq_append_getElem (by simpa using hn), List.foldl_append, List.getElem_finRange]
    exact (ih (by omega)).step (r := ⟨n, hn⟩)

/-- Settles O36: after 32 rounds the registers hold the last four words of X, and 32 is a multiple of
4, so they stand in order. -/
theorem inPlaceTransformAgrees : Obligations.InPlaceTransformAgrees := by
  intro rk b
  have h := holdsWindow_foldl rk b 32 (holdsWindow_start rk b) le_rfl
  rw [List.take_of_length_le (by simp)] at h
  rw [blockTransform_eq_roundWord, ← h 35 (by omega) (by omega), ← h 34 (by omega) (by omega),
    ← h 33 (by omega) (by omega), ← h 32 (by omega) (by omega)]
  rfl

end Sys2Proof.Machine
end

section
/-! SUPPORT. The inverse of the block transform (R71), and decryption under the mirrored schedule (R73,
R87 (b)). -/

namespace Sys2Proof.Machine

/-- The block transform inverts the block transform with the round keys in reverse order. -/
theorem blockTransform_blockTransform_reverse (rk : RoundKeys) (b : Block) :
    blockTransform rk (blockTransform rk.reverse b) = b := by
  have h := blockTransform_reverse rk.reverse b
  rwa [Vector.reverse_reverse] at h

/-- Settles O37: the block transform with the round keys in reverse order is its inverse. -/
theorem blockTransformIsABijection : Obligations.BlockTransformIsABijection := fun rk =>
  Function.bijective_iff_has_inverse.mpr ⟨blockTransform rk.reverse, blockTransform_reverse rk,
    blockTransform_blockTransform_reverse rk⟩

/-- Settles O38: the decryption schedule is the encryption schedule in reverse order. -/
theorem mirroredScheduleRecoversTheBlock : Obligations.MirroredScheduleRecoversTheBlock :=
  fun key b => ⟨blockTransform_decrypt_encrypt key b,
    blockTransform_blockTransform_reverse (keyExpand key) b⟩

/-- Settles O42: block by block, decryption inverts encryption and leaves the same LB. -/
theorem chainDecryptionInvertsEncryption : Obligations.ChainDecryptionInvertsEncryption :=
  fun mode key iv _ hm => chain_decrypt_encrypt mode key iv hm

end Sys2Proof.Machine
end

section
/-! SUPPORT. The mode layer block by block (R81 to R84): ChainBlock in each mode, and Chain cut at a
block boundary. -/

namespace Sys2Proof.Machine

theorem xorBlocks_eq_ofFn (a b : Block) : xorBlocks a b = Vector.ofFn fun i => a[i] ^^^ b[i] := by
  apply Vector.ext
  intro i hi
  simp [xorBlocks]

theorem getElem_xorBlocks (a b : Block) (i : Fin 16) : (xorBlocks a b)[i] = a[i] ^^^ b[i] := by
  simp [xorBlocks]

/-- Settles O40: ChainBlock in ECB, on CBC encrypt and on CBC decrypt. -/
theorem chainBlockByMode : Obligations.ChainBlockByMode := fun rk lb b =>
  ⟨fun _ => rfl, congrArg (blockTransform rk) (xorBlocks_eq_ofFn b lb), rfl,
    getElem_xorBlocks (blockTransform rk b) lb, rfl⟩

theorem chainBlocks_append (p : Pipeline) (as bs : List Block) (lb : Block) :
    chainBlocks p lb (as ++ bs) =
      ((chainBlocks p lb as).1 ++ (chainBlocks p (chainBlocks p lb as).2 bs).1,
        (chainBlocks p (chainBlocks p lb as).2 bs).2) := by
  induction as generalizing lb with
  | nil => rfl
  | cons a as ih => simp only [List.cons_append, chainBlocks, ih]

/-- Chain after whole blocks goes on from the LB they leave. What follows them need not be whole. -/
theorem chain_append (p : Pipeline) (lb : Block) {m₁ : List Byte} (m₂ : List Byte)
    (h : m₁.length % 16 = 0) :
    chain p lb (m₁ ++ m₂) =
      ((chain p lb m₁).1 ++ (chain p (chain p lb m₁).2 m₂).1,
        (chain p (chain p lb m₁).2 m₂).2) := by
  have hcount : (m₁ ++ m₂).length / 16 = m₁.length / 16 + m₂.length / 16 := by
    rw [List.length_append]
    omega
  simp only [chain, hcount, blocksOf_append _ _ (show m₁.length = 16 * (m₁.length / 16) by omega),
    chainBlocks_append, bytesOf_append]

theorem chain_toList (p : Pipeline) (lb b : Block) :
    chain p lb b.toList = ((chainBlock p lb b).1.toList, (chainBlock p lb b).2) := by
  simp [chain, blocksOf, chainBlocks, List.take_of_length_le, blockOfBytes_toList]

/-- Settles O41: a block is a string of whole blocks, so its clause is a case of the cutting. -/
theorem chainSplitsAtBlockBoundaries : Obligations.ChainSplitsAtBlockBoundaries := by
  intro p lb
  refine ⟨rfl, fun b m _ => ?_, fun m hm => ?_, fun m₁ m₂ h₁ _ => chain_append p lb m₂ h₁⟩
  · rw [chain_append p lb m (by simp), chain_toList]
  · rw [length_chain]
    omega

end Sys2Proof.Machine
end

section
/-! SUPPORT. Streaming (R114): a BLOCK command and what comes after it give the bytes of one command.
On decrypt with padding, what BLOCK outputs and then withholds is the whole tail of R99, so that the
tail of the next command continues it. -/

namespace Sys2Proof.Machine

/-! Strings cut from the end. -/

theorem append_take_length_sub {α : Type} (as : List α) {bs : List α} {n : Nat}
    (h : n ≤ bs.length) :
    as ++ bs.take (bs.length - n) = (as ++ bs).take ((as ++ bs).length - n) := by
  rw [List.length_append, Nat.add_sub_assoc h, List.take_length_add_append]

theorem lastBlock_append (as : List Byte) {bs : List Byte} (h : 16 ≤ bs.length) :
    lastBlock (as ++ bs) = lastBlock bs := by
  rw [lastBlock, List.length_append, Nat.add_sub_assoc h, List.drop_length_add_append, lastBlock]

theorem take_append_lastBlock {bs : List Byte} (h : 16 ≤ bs.length) :
    bs.take (bs.length - 16) ++ (lastBlock bs).toList = bs := by
  rw [lastBlock, toList_blockOfBytes (by rw [List.length_drop]; omega), List.take_append_drop]

/-! The padding layer. -/

theorem trailingZeros_le (bs : List Byte) : trailingZeros bs ≤ bs.length := by
  rw [trailingZeros, ← List.length_reverse (as := bs)]
  exact (List.takeWhile_sublist _).length_le

theorem padByte_le {last : Block} (h : badLength last = false) : padByte last ≤ 16 := by
  simp only [badLength, Bool.or_eq_false_iff, decide_eq_false_iff_not] at h
  omega

/-- Whatever a validator accepts, it strips at most a block. -/
theorem validate_le {pad : Padding} {last : Block} {strip : Nat}
    (h : validate pad last = some strip) : strip ≤ 16 := by
  cases pad with
  | none => cases h; decide
  | zeros =>
    cases h
    simpa using trailingZeros_le last.toList
  | pkcs7 | ansix923 =>
    simp only [validate, Option.ite_none_left_eq_some, Bool.not_eq_true, Bool.or_eq_false_iff,
      Option.some.injEq] at h
    exact h.2 ▸ padByte_le h.1.1
  | iso10126 =>
    simp only [validate, Option.ite_none_left_eq_some, Bool.not_eq_true, Option.some.injEq] at h
    exact h.2 ▸ padByte_le h.1

/-- Only ISO10126 looks at the draw (R92 to R95). -/
theorem padBytes_congr_draw {pad : Padding} {draw draw' : List Byte} (k : Nat)
    (h : pad = .iso10126 → draw = draw') : padBytes pad k draw = padBytes pad k draw' := by
  cases pad with
  | iso10126 => rw [h rfl]
  | none | pkcs7 | ansix923 | zeros => rfl

/-- Whole blocks before a message do not change its pad. -/
theorem padded_append (pad : Padding) {m₁ : List Byte} (m₂ draw : List Byte)
    (h : m₁.length % 16 = 0) : padded pad (m₁ ++ m₂) draw = m₁ ++ padded pad m₂ draw := by
  have hk : padLen (m₁ ++ m₂).length = padLen m₂.length := by
    rw [padLen, padLen, List.length_append]
    omega
  rw [padded, padded, hk, List.append_assoc]

/-! The state after BLOCK. -/

@[simp] theorem blockOutput_nil (s : State) : blockOutput [] s = ([], s) := by
  simp [blockOutput, decryptBlock]

@[simp] theorem blockOutput_pipeline (c : List Byte) (s : State) :
    (blockOutput c s).2.pipeline = s.pipeline := by
  simp [State.pipeline]

/-- BLOCK leaves the LB of Chain, whether it withholds a block or not (R96, R98). -/
theorem blockOutput_lb (c : List Byte) (s : State) :
    (blockOutput c s).2.lb = (chain s.pipeline s.lb c).2 := by
  unfold blockOutput decryptBlock
  split_ifs with _ hc
  · rw [hc]
    rfl
  · exact s.runChain_lb c
  · exact s.runChain_lb c

/-- Chain after BLOCK is the rest of Chain of the whole. -/
theorem chain_append_after_block {m₁ : List Byte} (m₂ : List Byte) (s : State)
    (h : m₁.length % 16 = 0) :
    chain s.pipeline s.lb (m₁ ++ m₂) =
      ((chain s.pipeline s.lb m₁).1 ++
          (chain (blockOutput m₁ s).2.pipeline (blockOutput m₁ s).2.lb m₂).1,
        (chain (blockOutput m₁ s).2.pipeline (blockOutput m₁ s).2.lb m₂).2) := by
  rw [blockOutput_pipeline, blockOutput_lb, chain_append _ _ _ h]

/-- On encrypt or without padding BLOCK is Chain (R96). -/
theorem blockOutput_direct {s : State} (c : List Byte) (h : s.dir = .encrypt ∨ s.pad = .none) :
    blockOutput c s = s.runChain c := by
  rw [blockOutput, if_neg]
  rintro ⟨hd, hp⟩
  rcases h with h | h
  · rw [h] at hd
    cases hd
  · exact hp h

section Withholding

variable {s : State} (hd : s.dir = .decrypt) (hp : s.pad ≠ .none)

include hd hp

/-- BLOCK on decrypt with padding: all of the tail but its last block, which is withheld (R98). -/
theorem blockOutput_of_withholding {c : List Byte} (hne : c ≠ []) (hc : c.length % 16 = 0) :
    (blockOutput c s).1 = (fullTail c s).take ((fullTail c s).length - 16) ∧
      (blockOutput c s).2.wb = lastBlock (fullTail c s) ∧ (blockOutput c s).2.hasWb = true := by
  have hlen : 16 ≤ (s.runChain c).1.length := by
    have hpos := List.length_pos_iff.2 hne
    rw [State.length_runChain]
    omega
  have hb : blockOutput c s = (s.withheld ++ (s.runChain c).1.take ((s.runChain c).1.length - 16),
      (s.runChain c).2.withhold (lastBlock (s.runChain c).1)) := by
    rw [blockOutput, if_pos ⟨hd, hp⟩, decryptBlock, if_neg hne]
  rw [hb, fullTail, ← append_take_length_sub _ hlen, lastBlock_append _ hlen]
  exact ⟨rfl, rfl, rfl⟩

/-- What BLOCK outputs and what is withheld after it make up the whole tail. -/
theorem blockOutput_append_withheld {c : List Byte} (hc : c.length % 16 = 0) :
    (blockOutput c s).1 ++ (blockOutput c s).2.withheld = fullTail c s := by
  by_cases hne : c = []
  · simp [hne, fullTail]
  · obtain ⟨hout, hwb, hhas⟩ := blockOutput_of_withholding hd hp hne hc
    have hlen := length_fullTail c s
    have hpos := List.length_pos_iff.2 hne
    rw [State.withheld, hhas, if_pos rfl, hout, hwb]
    exact take_append_lastBlock (by split at hlen <;> omega)

/-- The tail of the command after BLOCK continues what BLOCK has output. -/
theorem blockOutput_append_fullTail {m₁ : List Byte} (m₂ : List Byte) (h : m₁.length % 16 = 0) :
    (blockOutput m₁ s).1 ++ fullTail m₂ (blockOutput m₁ s).2 = fullTail (m₁ ++ m₂) s := by
  rw [fullTail, ← List.append_assoc, blockOutput_append_withheld hd hp h, fullTail, fullTail,
    State.runChain_out, State.runChain_out, State.runChain_out, chain_append_after_block m₂ s h,
    List.append_assoc]

/-- After a BLOCK that has moved something, a block is withheld, and the next tail holds it. -/
theorem le_length_fullTail_after_block {m₁ : List Byte} (m₂ : List Byte) (hne : m₁ ≠ [])
    (h : m₁.length % 16 = 0) : 16 ≤ (fullTail m₂ (blockOutput m₁ s).2).length := by
  obtain ⟨-, -, hhas⟩ := blockOutput_of_withholding hd hp hne h
  simp [fullTail, State.withheld, hhas]

/-- FINAL after BLOCK on decrypt with padding: both see the same last block, and FINAL strips no more
than the tail that is left to it. -/
theorem finalOutput_after_block_withholding {m₁ : List Byte} (m₂ : List Byte)
    (h : m₁.length % 16 = 0) :
    (finalOutput m₂ (blockOutput m₁ s).2).1.map ((blockOutput m₁ s).1 ++ ·) =
      (finalOutput (m₁ ++ m₂) s).1 := by
  by_cases hne : m₁ = []
  · simp [hne]
  · have hlen := le_length_fullTail_after_block hd hp m₂ hne h
    have hd' : (blockOutput m₁ s).2.dir = .decrypt := by rw [blockOutput_dir, hd]
    have hp' : (blockOutput m₁ s).2.pad ≠ .none := by rwa [blockOutput_pad]
    have hfull' : fullTail m₂ (blockOutput m₁ s).2 ≠ [] := List.ne_nil_of_length_pos (by omega)
    have hfull : fullTail (m₁ ++ m₂) s ≠ [] := by
      rw [← blockOutput_append_fullTail hd hp m₂ h]
      exact List.append_ne_nil_of_right_ne_nil _ hfull'
    rw [finalOutput_decrypt hd' hp' hfull', finalOutput_decrypt hd hp hfull, blockOutput_pad,
      ← blockOutput_append_fullTail hd hp m₂ h, lastBlock_append _ hlen, Option.map_map]
    refine Option.map_congr fun strip hstrip => ?_
    exact append_take_length_sub _ ((validate_le hstrip).trans hlen)

/-- Two BLOCKs on decrypt with padding: bytes, WB and HAS_WB. -/
theorem blockOutput_after_block_withholding {m₁ m₂ : List Byte} (h₁ : m₁.length % 16 = 0)
    (h₂ : m₂.length % 16 = 0) :
    (blockOutput m₁ s).1 ++ (blockOutput m₂ (blockOutput m₁ s).2).1 =
        (blockOutput (m₁ ++ m₂) s).1 ∧
      (blockOutput m₂ (blockOutput m₁ s).2).2.wb = (blockOutput (m₁ ++ m₂) s).2.wb ∧
      (blockOutput m₂ (blockOutput m₁ s).2).2.hasWb = (blockOutput (m₁ ++ m₂) s).2.hasWb := by
  by_cases hne₁ : m₁ = []
  · simp [hne₁]
  by_cases hne₂ : m₂ = []
  · simp [hne₂]
  have hlen := le_length_fullTail_after_block hd hp m₂ hne₁ h₁
  have hd' : (blockOutput m₁ s).2.dir = .decrypt := by rw [blockOutput_dir, hd]
  have hp' : (blockOutput m₁ s).2.pad ≠ .none := by rwa [blockOutput_pad]
  obtain ⟨hout', hwb', hhas'⟩ := blockOutput_of_withholding hd' hp' hne₂ h₂
  obtain ⟨hout, hwb, hhas⟩ := blockOutput_of_withholding hd hp (c := m₁ ++ m₂) (by simp [hne₁])
    (by rw [List.length_append]; omega)
  rw [← blockOutput_append_fullTail hd hp m₂ h₁] at hout hwb
  refine ⟨?_, ?_, ?_⟩
  · rw [hout', hout, append_take_length_sub _ hlen]
  · rw [hwb', hwb, lastBlock_append _ hlen]
  · rw [hhas', hhas]

end Withholding

/-- FINAL after BLOCK on encrypt, for equal ISO10126 draws. -/
theorem finalOutput_after_block_encrypt {s : State} {m₁ : List Byte} (m₂ : List Byte)
    (hd : s.dir = .encrypt) (h : m₁.length % 16 = 0)
    (hdraw : s.pad = .iso10126 → isoDraw (blockOutput m₁ s).2.draws = isoDraw s.draws) :
    (finalOutput m₂ (blockOutput m₁ s).2).1.map ((blockOutput m₁ s).1 ++ ·) =
      (finalOutput (m₁ ++ m₂) s).1 := by
  have hd' : (blockOutput m₁ s).2.dir = .encrypt := by rw [blockOutput_dir, hd]
  have hpad : padded s.pad m₂ (isoDraw (blockOutput m₁ s).2.draws) =
      padded s.pad m₂ (isoDraw s.draws) := by
    rw [padded, padded, padBytes_congr_draw _ hdraw]
  rw [finalOutput_encrypt hd', finalOutput_encrypt hd, blockOutput_pad, hpad,
    padded_append _ _ _ h, chain_append_after_block _ s h, Option.map_some,
    blockOutput_direct m₁ (.inl hd), State.runChain_out]

/-- FINAL after BLOCK without padding, in either direction. -/
theorem finalOutput_after_block_noPadding {s : State} {m₁ : List Byte} (m₂ : List Byte)
    (hp : s.pad = .none) (h : m₁.length % 16 = 0) :
    (finalOutput m₂ (blockOutput m₁ s).2).1.map ((blockOutput m₁ s).1 ++ ·) =
      (finalOutput (m₁ ++ m₂) s).1 := by
  have hp' : (blockOutput m₁ s).2.pad = .none := by rw [blockOutput_pad, hp]
  rw [finalOutput, finalOutput, if_pos hp', if_pos hp]
  simp only [Option.map_some, State.runChain_out, chain_append_after_block m₂ s h]
  rw [blockOutput_direct m₁ (.inr hp), State.runChain_out]

/-- Two BLOCKs on encrypt or without padding: bytes, WB and HAS_WB. -/
theorem blockOutput_after_block_direct {s : State} {m₁ : List Byte} (m₂ : List Byte)
    (hs : s.dir = .encrypt ∨ s.pad = .none) (h : m₁.length % 16 = 0) :
    (blockOutput m₁ s).1 ++ (blockOutput m₂ (blockOutput m₁ s).2).1 =
        (blockOutput (m₁ ++ m₂) s).1 ∧
      (blockOutput m₂ (blockOutput m₁ s).2).2.wb = (blockOutput (m₁ ++ m₂) s).2.wb ∧
      (blockOutput m₂ (blockOutput m₁ s).2).2.hasWb = (blockOutput (m₁ ++ m₂) s).2.hasWb := by
  have hs' : (blockOutput m₁ s).2.dir = .encrypt ∨ (blockOutput m₁ s).2.pad = .none := by
    simpa using hs
  rw [blockOutput_direct m₂ hs', blockOutput_direct (m₁ ++ m₂) hs, State.runChain_out,
    State.runChain_out, chain_append_after_block m₂ s h, blockOutput_direct m₁ hs,
    State.runChain_out]
  simp

/-- Settles O51: the two BLOCKs leave the LB of one in every configuration; the bytes are Chain cut at
a block boundary, or the tail of the message on decrypt with padding. -/
theorem streamingEquivalence : Obligations.StreamingEquivalence := by
  intro s m₁ m₂ h₁
  have hlb : (blockOutput m₂ (blockOutput m₁ s).2).2.lb = (blockOutput (m₁ ++ m₂) s).2.lb := by
    rw [blockOutput_lb m₂, blockOutput_lb (m₁ ++ m₂), chain_append_after_block m₂ s h₁]
  by_cases hp : s.pad = .none
  · obtain ⟨hout, hwb, hhas⟩ := blockOutput_after_block_direct m₂ (.inr hp) h₁
    exact ⟨fun _ _ => finalOutput_after_block_noPadding m₂ hp h₁, fun _ => ⟨hout, hlb, hwb, hhas⟩⟩
  cases hd : s.dir with
  | encrypt =>
    obtain ⟨hout, hwb, hhas⟩ := blockOutput_after_block_direct m₂ (.inl hd) h₁
    exact ⟨fun _ hdraw => finalOutput_after_block_encrypt m₂ hd h₁ (hdraw rfl),
      fun _ => ⟨hout, hlb, hwb, hhas⟩⟩
  | decrypt =>
    refine ⟨fun _ _ => finalOutput_after_block_withholding hd hp m₂ h₁, fun h₂ => ?_⟩
    obtain ⟨hout, hwb, hhas⟩ := blockOutput_after_block_withholding hd hp h₁ h₂
    exact ⟨hout, hlb, hwb, hhas⟩

end Sys2Proof.Machine
end

section
/-! SUPPORT. The padding layer by index (R91 to R103): how long each pad is, what each validator
accepts, and the zero bytes at the end of a string. -/

namespace Sys2Proof.Machine

open Sys2Proof.Safety

/-! The encoder (R91 to R95). -/

/-- Settles O45, by the remainder of `n`. -/
theorem padLenIsOneToSixteen : Obligations.PadLenIsOneToSixteen := by
  refine ⟨fun n => ?_, by decide⟩
  unfold padLen
  omega

/-- `length_padBytes` for every draw of 15 bytes, not the machine's own alone. -/
theorem length_padBytes_of_draw {pad : Padding} {k : Nat} {draw : List Byte} (hp : pad ≠ .none)
    (h1 : 1 ≤ k) (h16 : k ≤ 16) (hdraw : draw.length = 15) : (padBytes pad k draw).length = k := by
  cases pad with
  | none => exact absurd rfl hp
  | iso10126 =>
    rw [padBytes, List.length_append, List.length_take, List.length_singleton]
    omega
  | pkcs7 | ansix923 | zeros => exact length_padBytes 0 hp h1 h16

/-- The bytes of a string with one byte more at its end. -/
theorem getElem?_append_byte {bs : List Byte} {b : Byte} {i : Nat} (h : i ≤ bs.length) :
    (bs ++ [b])[i]? = if i = bs.length then some b else bs[i]? := by
  split
  · next hi => rw [hi, List.getElem?_concat_length]
  · exact List.getElem?_append_left (by omega)

/-- Settles O46: a pad is one byte repeated, or `k - 1` bytes and then the length byte. -/
theorem padBytesByScheme : Obligations.PadBytesByScheme := by
  intro k draw h1 h16 hdraw
  have hlen := fun (pad : Padding) (hp : pad ≠ .none) => length_padBytes_of_draw hp h1 h16 hdraw
  have hzeros : (List.replicate (k - 1) (0 : Byte)).length = k - 1 := List.length_replicate
  have htake : (draw.take (k - 1)).length = k - 1 := by
    rw [List.length_take]
    omega
  refine ⟨⟨hlen .pkcs7 (by decide), fun i hi => ?_⟩, ⟨hlen .ansix923 (by decide), fun i hi => ?_⟩,
    ⟨hlen .iso10126 (by decide), fun i hi => ?_⟩, ⟨hlen .zeros (by decide), fun i hi => ?_⟩⟩
  · exact List.getElem?_replicate_of_lt hi
  · rw [padBytes, getElem?_append_byte (by omega), hzeros, apply_ite some]
    split
    · rfl
    · exact List.getElem?_replicate_of_lt (by omega)
  · rw [padBytes, getElem?_append_byte (by omega), htake]
    split
    · rfl
    · exact List.getElem?_take_of_lt (by omega)
  · exact List.getElem?_replicate_of_lt hi

/-! The validators of the PKCS7 family (R100 to R102). -/

theorem badLength_eq_false_iff {last : Block} :
    badLength last = false ↔ 1 ≤ padByte last ∧ padByte last ≤ 16 := by
  rw [badLength, Bool.or_eq_false_iff, decide_eq_false_iff_not, decide_eq_false_iff_not]
  omega

/-- A scan that finds nothing has seen the expected byte at every index from the pad's first. -/
theorem getD_of_badPad_eq_false {last : Block} {expected : Byte} {n : Nat}
    (h : badPad last expected n = false) {i : Nat} (hi : i < n) (hlow : 16 - padByte last ≤ i) :
    last.toList.getD i 0 = expected := by
  induction n with
  | zero => omega
  | succ n ih =>
    rw [badPad, Bool.or_eq_false_iff] at h
    obtain ⟨hn, hrest⟩ := h
    by_cases hin : i = n
    · subst hin
      simpa only [hlow, decide_true, Bool.true_and, decide_eq_false_iff_not, not_not] using hn
    · exact ih hrest (by omega)

theorem badPad_eq_false_iff {last : Block} {expected : Byte} {n : Nat} (hn : n ≤ 16) :
    badPad last expected n = false ↔
      ∀ i : Fin 16, i.1 < n → 16 - padByte last ≤ i.1 → last[i] = expected := by
  have hget : ∀ i : Fin 16, last.toList.getD i.1 0 = last[i] := fun i => by simp
  constructor
  · intro h i hi hlow
    rw [← hget, getD_of_badPad_eq_false h hi hlow]
  · intro h
    refine badPad_eq_false fun i hi hlow => ?_
    rw [hget ⟨i, by omega⟩]
    exact h ⟨i, by omega⟩ hi hlow

theorem validate_pkcs7_iff {last : Block} {k : Nat} :
    validate .pkcs7 last = some k ↔
      padByte last = k ∧ 1 ≤ k ∧ k ≤ 16 ∧ ∀ i : Fin 16, 16 - k ≤ i.1 → last[i].toNat = k := by
  simp only [validate, Option.ite_none_left_eq_some, Bool.not_eq_true, Bool.or_eq_false_iff,
    Option.some.injEq, badLength_eq_false_iff, badPad_eq_false_iff (le_refl 16)]
  constructor
  · rintro ⟨⟨⟨h1, h16⟩, hscan⟩, rfl⟩
    exact ⟨rfl, h1, h16, fun i hi => congrArg BitVec.toNat (hscan i i.2 hi)⟩
  · rintro ⟨rfl, h1, h16, hscan⟩
    exact ⟨⟨⟨h1, h16⟩, fun i _ hi => BitVec.eq_of_toNat_eq (hscan i hi)⟩, rfl⟩

theorem validate_ansix923_iff {last : Block} {k : Nat} :
    validate .ansix923 last = some k ↔
      padByte last = k ∧ 1 ≤ k ∧ k ≤ 16 ∧
        ∀ i : Fin 16, 16 - k ≤ i.1 → i.1 ≠ 15 → last[i] = 0 := by
  simp only [validate, Option.ite_none_left_eq_some, Bool.not_eq_true, Bool.or_eq_false_iff,
    Option.some.injEq, badLength_eq_false_iff, badPad_eq_false_iff (show 15 ≤ 16 by decide)]
  constructor
  · rintro ⟨⟨⟨h1, h16⟩, hscan⟩, rfl⟩
    exact ⟨rfl, h1, h16, fun i hi hne => hscan i (by omega) hi⟩
  · rintro ⟨rfl, h1, h16, hscan⟩
    exact ⟨⟨⟨h1, h16⟩, fun i hlt hi => hscan i hi (by omega)⟩, rfl⟩

theorem validate_iso10126_iff {last : Block} {k : Nat} :
    validate .iso10126 last = some k ↔ padByte last = k ∧ 1 ≤ k ∧ k ≤ 16 := by
  simp only [validate, Option.ite_none_left_eq_some, Bool.not_eq_true, Option.some.injEq,
    badLength_eq_false_iff]
  constructor
  · rintro ⟨hlen, rfl⟩
    exact ⟨rfl, hlen⟩
  · rintro ⟨rfl, hlen⟩
    exact ⟨hlen, rfl⟩

/-- Settles O47, validator by validator. -/
theorem validateThePkcs7Family : Obligations.ValidateThePkcs7Family := fun _ _ =>
  ⟨validate_pkcs7_iff, validate_ansix923_iff, validate_iso10126_iff⟩

/-! The zero bytes at the end of a string (R103). -/

/-- A string is its zero bytes at the end, after a string that does not end in one. -/
theorem exists_append_trailingZeros (bs : List Byte) :
    ∃ front, bs = front ++ List.replicate (trailingZeros bs) 0 ∧ front.getLast? ≠ some 0 := by
  induction bs using List.reverseRecOn with
  | nil => exact ⟨[], rfl, by simp⟩
  | append_singleton bs b ih =>
    by_cases hb : b = 0
    · obtain ⟨front, hbs, hfront⟩ := ih
      have hcount : trailingZeros (bs ++ [0]) = trailingZeros bs + 1 :=
        trailingZeros_append_zeros bs 1
      refine ⟨front, ?_, hfront⟩
      rw [hb, hcount, List.replicate_succ', ← List.append_assoc, ← hbs]
    · have hlast : (bs ++ [b]).getLast? ≠ some 0 := by simpa using hb
      exact ⟨bs ++ [b], by simp [trailingZeros_eq_zero hlast], hlast⟩

theorem trailingZeros_eq_zero_iff {bs : List Byte} :
    trailingZeros bs = 0 ↔ bs.getLast? ≠ some 0 := by
  refine ⟨fun h => ?_, trailingZeros_eq_zero⟩
  obtain ⟨front, hbs, hfront⟩ := exists_append_trailingZeros bs
  rw [h, List.replicate_zero, List.append_nil] at hbs
  rwa [hbs]

/-- Settles O48: the last block is its zero bytes at the end, after bytes the last of which is not
zero. -/
theorem validateZeros : Obligations.ValidateZeros := by
  intro last
  obtain ⟨front, hlast, hfront⟩ := exists_append_trailingZeros last.toList
  have hle : trailingZeros last.toList ≤ 16 := by simpa using trailingZeros_le last.toList
  refine ⟨trailingZeros last.toList, rfl, hle, ?_⟩
  generalize trailingZeros last.toList = k at hlast hle
  have hlen : front.length = 16 - k := by
    have := congrArg List.length hlast
    rw [List.length_append, List.length_replicate, Vector.length_toList] at this
    omega
  have hget : ∀ i : Fin 16, some last[i] = (front ++ List.replicate k 0)[i.1]? := fun i => by
    rw [← hlast]
    simp
  refine ⟨fun i hi => ?_, fun i hi hzero => hfront ?_⟩
  · have := hget i
    rw [List.getElem?_append_right (by omega), List.getElem?_replicate_of_lt (by omega)] at this
    exact Option.some.inj this
  · rw [List.getLast?_eq_getElem?, ← hzero, hget i, List.getElem?_append_left (by omega)]
    congr 1
    omega

/-! The encoder and the validator together (R108). -/

/-- Settles O49: a message comes back in the PKCS7 family whatever its bytes. -/
theorem encodedPadIsAccepted : Obligations.EncodedPadIsAccepted := by
  intro pad m draw hfamily hdraw
  have hp : pad ≠ .none := by rcases hfamily with rfl | rfl | rfl <;> decide
  have hm : ComesBack pad m := by rcases hfamily with rfl | rfl | rfl <;> trivial
  have hk : padLen m.length = 16 - m.length % 16 := rfl
  have hlen := length_padBytes_of_draw hp (k := padLen m.length) (by omega) (by omega) hdraw
  exact ⟨validate_padded hp hlen hm, take_padded hlen⟩

/-- Stripping a Zeros pad and `extra` bytes more gives the message only if there are none more. -/
theorem take_padded_zeros_eq_iff {m draw : List Byte} {extra : Nat} (h : extra ≤ m.length) :
    (padded .zeros m draw).take
        ((padded .zeros m draw).length - (extra + padLen m.length)) = m ↔ extra = 0 := by
  have hcut : (padded .zeros m draw).length - (extra + padLen m.length) = m.length - extra := by
    rw [padded, padBytes, List.length_append, List.length_replicate]
    omega
  rw [hcut, padded, List.take_append_of_le_length (by omega), List.take_eq_self_iff]
  omega

/-- Settles O50: the strip is the pad and the zero bytes of the message before it in the last block,
of which there are none exactly when that block holds nothing of the message or the message's last
byte is not zero. -/
theorem zerosRoundTripExactly : Obligations.ZerosRoundTripExactly := by
  intro m draw
  have hk : padLen m.length = 16 - m.length % 16 := rfl
  have hlen : (padBytes .zeros (padLen m.length) draw).length = padLen m.length :=
    List.length_replicate
  have hstrip : validate .zeros (lastBlock (padded .zeros m draw)) =
      some (trailingZeros (m.drop (m.length + padLen m.length - 16)) + padLen m.length) := by
    rw [validate, toList_lastBlock_padded hlen, padBytes, trailingZeros_append_zeros]
  have hle := trailingZeros_le (m.drop (m.length + padLen m.length - 16))
  rw [List.length_drop] at hle
  refine ⟨_, hstrip, ?_⟩
  rw [take_padded_zeros_eq_iff (by omega), trailingZeros_eq_zero_iff, List.getLast?_drop]
  split
  · next hwhole => exact iff_of_true (by simp) (.inl (by omega))
  · next hpart => exact (or_iff_right (by omega)).symm

end Sys2Proof.Machine
end

section
/-! SUPPORT. Completion with padding (R97 to R99, R105, R112, R113): what BLOCK and FINAL leave when
they deliver output, for any output, and the output of each form of the commands. -/

namespace Sys2Proof.Machine

open Sys2Proof.Safety

/-! Delivered output. -/

/-- What a command that delivers `out` leaves, whatever its form: the bytes are stored and counted, and
the phase and the configuration are those before it. -/
def Delivered (s t : State) (outAddr : Nat) (out : List Byte) : Prop :=
  Stored s.mem outAddr out t.mem ∧ t.status = .ok ∧ t.count.toNat = out.length ∧
    t.phase = s.phase ∧ SameConfiguration s t

theorem delivered_deliver {s u : State} {outAddr : Nat} {out : List Byte}
    (hconf : SameConfiguration s u) (hphase : u.phase = s.phase) (hmem : u.mem = s.mem)
    (hlt : out.length < 2 ^ 32) : Delivered s (u.deliver outAddr out) outAddr out :=
  ⟨hmem ▸ stored_writeBytes u.mem outAddr out, rfl, Nat.mod_eq_of_lt hlt, hphase, hconf⟩

section Command

variable {ia ic oa : Word} {s : State} (hp : s.phase = .ready)
  (hr : admits s.platform .read ia.toNat ic.toNat = true)

include hp hr

theorem exec_block_output (hb : ¬BlockCountFault ic.toNat)
    (hw : admits s.platform .write oa.toNat
      (blockOutput (s.mem.readBytes ia.toNat ic.toNat) s).1.length = true) :
    exec (.block ia ic oa) s = .next
      ((blockOutput (s.mem.readBytes ia.toNat ic.toNat) s).2.deliver oa.toNat
        (blockOutput (s.mem.readBytes ia.toNat ic.toNat) s).1) := by
  rw [← badBlockCount_iff, Bool.not_eq_true] at hb
  simp [exec, execBlock, hp, hb, State.memRead, hr, State.reserve, hw]

/-- BLOCK on admitted ranges delivers what `blockOutput` gives, and leaves its LB and withheld
block. -/
theorem exec_block_delivers (hb : ¬BlockCountFault ic.toNat)
    (hw : admits s.platform .write oa.toNat
      (blockOutput (s.mem.readBytes ia.toNat ic.toNat) s).1.length = true) :
    ∃ t, exec (.block ia ic oa) s = .next t ∧
      Delivered s t oa.toNat (blockOutput (s.mem.readBytes ia.toNat ic.toNat) s).1 ∧
      t.lb = (blockOutput (s.mem.readBytes ia.toNat ic.toNat) s).2.lb ∧
      t.wb = (blockOutput (s.mem.readBytes ia.toNat ic.toNat) s).2.wb ∧
      t.hasWb = (blockOutput (s.mem.readBytes ia.toNat ic.toNat) s).2.hasWb := by
  have hlen := length_blockOutput_le (c := s.mem.readBytes ia.toNat ic.toNat) s
  rw [Memory.length_readBytes] at hlen
  have hlt : (blockOutput (s.mem.readBytes ia.toNat ic.toNat) s).1.length < 2 ^ 32 := by
    unfold BlockCountFault at hb
    omega
  exact ⟨_, exec_block_output hp hr hb hw,
    delivered_deliver (sameConfiguration_blockOutput _ s) (blockOutput_phase _ s)
      (blockOutput_mem _ s) hlt, rfl, rfl, rfl⟩

/-- FINAL on admitted ranges delivers what `finalOutput` gives and closes the message. -/
theorem exec_final_delivers {out : List Byte} (hb : ¬FinalCountFault s ic.toNat)
    (ho : (finalOutput (s.mem.readBytes ia.toNat ic.toNat) s).1 = some out)
    (hw : admits s.platform .write oa.toNat out.length = true) :
    ∃ t, exec (.final ia ic oa) s = .next t ∧ Delivered s t oa.toNat out ∧ MessageClosed t := by
  have hlen := length_finalOutput_le ho
  rw [Memory.length_readBytes] at hlen
  have hlt : out.length < 2 ^ 32 := by
    unfold FinalCountFault at hb
    omega
  exact ⟨_, exec_final_output hp hb hr ho hw,
    delivered_deliver (sameConfiguration_finalOutput _ s) (finalOutput_phase _ s)
      (finalOutput_mem _ s) hlt, rfl, rfl, rfl⟩

end Command

/-! The forms with padding. -/

/-- Settles O23: BLOCK outputs all of the tail but its last block, which it withholds. -/
theorem blockWithholdsOneBlockOnDecrypt : Obligations.BlockWithholdsOneBlockOnDecrypt := by
  intro s ia ic oa full hphase hb hne hd hp hr hfull hw
  have hfull : full = fullTail (s.mem.readBytes ia.toNat ic.toNat) s := hfull
  have hcount : ic.toNat % 16 = 0 ∧ 16 ≤ ic.toNat := by
    have hpos : ic.toNat ≠ 0 := fun h => hne (BitVec.eq_of_toNat_eq h)
    unfold BlockCountFault at hb
    omega
  obtain ⟨hwhole, hpos⟩ := hcount
  have hlen := length_fullTail (s.mem.readBytes ia.toNat ic.toNat) s
  rw [← hfull, Memory.length_readBytes] at hlen
  obtain ⟨hout, hwb, hhas⟩ := blockOutput_of_withholding hd hp
    (c := s.mem.readBytes ia.toNat ic.toNat)
    (List.ne_nil_of_length_pos (by rw [Memory.length_readBytes]; omega))
    (by rwa [Memory.length_readBytes])
  rw [← hfull] at hout hwb
  have hcut : (full.take (full.length - 16)).length = full.length - 16 := by
    rw [List.length_take]
    omega
  obtain ⟨t, hexec, ⟨hstored, hstatus, htcount, htphase, hconf⟩, htlb, htwb, hthas⟩ :=
    exec_block_delivers (oa := oa) hphase hr hb (by rwa [hout, hcut])
  rw [hout] at hstored htcount
  refine ⟨t, hexec, hstored, ?_, hthas.trans hhas, htlb.trans (blockOutput_lb _ s), hstatus, ?_,
    htphase.trans hphase, hconf⟩
  · rw [htwb, hwb, lastBlock, toList_blockOfBytes]
    rw [List.length_drop]
    split at hlen <;> omega
  · rw [htcount, hcut, hlen]
    split <;> omega

/-- Settles O25: FINAL on encrypt outputs Chain of the padded input, which is whole blocks. -/
theorem finalEncryptsThePaddedRest : Obligations.FinalEncryptsThePaddedRest := by
  intro s ia ic oa hphase hd hp hmax hr hw
  have hb : ¬FinalCountFault s ic.toNat := by
    rintro (hbig | ⟨hd' | hp', -⟩)
    · omega
    · rw [hd] at hd'
      cases hd'
    · exact hp hp'
  have hout := finalOutput_encrypt (m := s.mem.readBytes ia.toNat ic.toNat) hd
  have hlen := outputLength_encrypt (m := s.mem.readBytes ia.toNat ic.toNat) hd hp
  rw [outputLength_some hout, Memory.length_readBytes] at hlen
  obtain ⟨t, hexec, ⟨hstored, hstatus, hcount, htphase, hconf⟩, hclosed⟩ :=
    exec_final_delivers (oa := oa) hphase hr hb hout (by rwa [hlen])
  rw [padded, Memory.length_readBytes] at hstored
  exact ⟨t, hexec, hstored, hstatus, hcount.trans hlen, htphase.trans hphase, hclosed, hconf⟩

/-- Settles O27: FINAL on decrypt outputs the tail less what the validator strips. -/
theorem finalDecryptsAndStrips : Obligations.FinalDecryptsAndStrips := by
  intro s ia ic oa full strip hphase hd hp hb hr hfull hne hv hw
  have hfull : full = fullTail (s.mem.readBytes ia.toNat ic.toNat) s := hfull
  have hwhole : ic.toNat % 16 = 0 := by
    simp only [FinalCountFault, hd, true_or, true_and] at hb
    omega
  have hlen := length_fullTail (s.mem.readBytes ia.toNat ic.toNat) s
  rw [← hfull, Memory.length_readBytes] at hlen
  have hout := finalOutput_decrypt (m := s.mem.readBytes ia.toNat ic.toNat) hd hp (hfull ▸ hne)
  rw [← hfull, hv, Option.map_some] at hout
  have hcut : (full.take (full.length - strip)).length = full.length - strip := by
    rw [List.length_take]
    omega
  obtain ⟨t, hexec, ⟨hstored, hstatus, hcount, htphase, hconf⟩, hclosed⟩ :=
    exec_final_delivers (oa := oa) hphase hr hb hout (by rwa [hcut])
  refine ⟨t, hexec, hstored, hstatus, ?_, htphase.trans hphase, hclosed, hconf⟩
  rw [hcount, hcut, hlen]
  omega

/-- On decrypt with padding FINAL has no output where there is no block at all (R105). -/
theorem finalOutput_decrypt_empty {m : List Byte} {s : State} (hd : s.dir = .decrypt)
    (hp : s.pad ≠ .none) (hf : fullTail m s = []) : (finalOutput m s).1 = none := by
  simp only [finalOutput, hp, if_false, hd, decryptFinal, hf, if_true]

/-- Settles O16: for no block and for a rejected last block FINAL has no output, and the range of every
length it may have is admitted; for no block every such length is 0. -/
theorem finalRejectsInvalidPadding : Obligations.FinalRejectsInvalidPadding := by
  intro s ia ic oa full hphase hd hp hb hr hfull hcause
  have hfull : full = fullTail (s.mem.readBytes ia.toNat ic.toNat) s := hfull
  rw [← badFinalCount_iff, Bool.not_eq_true] at hb
  suffices hrejected : (finalOutput (s.mem.readBytes ia.toNat ic.toNat) s).1 = none ∧
      ∀ k, k ≤ 16 → admits s.platform .write oa.toNat (full.length - k) = true by
    obtain ⟨hnone, hw⟩ := hrejected
    rw [hfull] at hw
    exact ⟨_, execFinal_rejected hphase hb hr hnone hw, rfl, rfl, finalOutput_mem _ s⟩
  rcases hcause with ⟨hic, hwb⟩ | ⟨hne, hv, hw⟩
  · have hempty : full = [] := by
      rw [hfull, ← List.length_eq_zero_iff, length_fullTail, hwb, hic]
      simp
    refine ⟨finalOutput_decrypt_empty hd hp (hfull ▸ hempty), fun k _ => ?_⟩
    rw [hempty, List.length_nil, Nat.zero_sub, admits_zero]
  · refine ⟨?_, hw⟩
    rw [finalOutput_decrypt hd hp (hfull ▸ hne), ← hfull, hv, Option.map_none]

end Sys2Proof.Machine
end

section
/-! SUPPORT. What the commands of a message leave where nothing goes wrong (R111 to R113): LOAD with a
legal configuration, BLOCK and FINAL where Chain alone makes the output, and the state after FINAL. -/

namespace Sys2Proof.Machine

open Sys2Proof.Safety

/-! The key and the IV that LOAD reads, byte by byte. -/

theorem getElem_keyFrom (mem : Memory) (addr : Word) {i : Nat} (hi : i < 16) :
    (keyFrom mem addr)[i] = mem.read (addr.toNat + i) := by
  simp only [keyFrom, blockOfBytes, Vector.getElem_ofFn]
  exact getD_readBytes mem addr.toNat hi

theorem keyFrom_eq_ofFn (mem : Memory) (addr : Word) :
    keyFrom mem addr = Vector.ofFn fun i => mem.read (addr.toNat + i.1) := by
  apply Vector.ext
  intro i hi
  rw [getElem_keyFrom mem addr hi, Vector.getElem_ofFn]

theorem ivFrom_cbc (mem : Memory) (addr : Word) : ivFrom mem .cbc addr = keyFrom mem addr := rfl

theorem ivFrom_ecb (mem : Memory) (addr : Word) : ivFrom mem .ecb addr = Block.zero := by
  rw [ivFrom]
  decide

theorem getElem_ivFrom (mem : Memory) (mode : Mode) (addr : Word) (i : Fin 16) :
    (ivFrom mem mode addr)[i] = if mode = .cbc then mem.read (addr.toNat + i.1) else 0 := by
  cases mode with
  | ecb =>
    rw [ivFrom_ecb, if_neg (by decide)]
    exact Vector.getElem_replicate i.2
  | cbc =>
    rw [ivFrom_cbc, if_pos rfl]
    exact getElem_keyFrom mem addr i.2

/-- Settles O11: LOAD leaves the loaded state, whose key and IV are the bytes it reads. -/
theorem loadBuildsThePipeline : Obligations.LoadBuildsThePipeline := by
  intro s dir m p ka va vl hk hcbc
  have hconf := loadConfiguration_eq_some m p vl fun hm => (hcbc hm).1
  refine ⟨s.loaded dir m p ka va, exec_load_loaded hconf hk fun hm => (hcbc hm).2,
    rfl, rfl, rfl, rfl, ?_, getElem_ivFrom s.mem m va, rfl, rfl, rfl, rfl, rfl, rfl, rfl, rfl⟩
  exact congrArg (keySchedule · dir) (keyFrom_eq_ofFn s.mem ka)

/-! Output that is Chain of the input. -/

/-- Chain of whole blocks read from memory has the length of its input (R84). -/
theorem length_chain_readBytes (p : Pipeline) (lb : Block) (mem : Memory) (addr : Nat) {n : Nat}
    (h : n % 16 = 0) : (chain p lb (mem.readBytes addr n)).1.length = n := by
  rw [length_chain, Memory.length_readBytes]
  omega

/-- Settles O22: on encrypt or without padding BLOCK delivers Chain of its input, and its withheld
block is the one before. -/
theorem blockMovesWholeBlocks : Obligations.BlockMovesWholeBlocks := by
  intro s ia ic oa hphase hb hdirect hr hw
  have hlen := length_chain_readBytes s.pipeline s.lb s.mem ia.toNat (n := ic.toNat)
    (by unfold BlockCountFault at hb; omega)
  have hout := blockOutput_direct (s.mem.readBytes ia.toNat ic.toNat) hdirect
  obtain ⟨t, hexec, ⟨hstored, hstatus, hcount, htphase, hconf⟩, hlb, hwb, hhas⟩ :=
    exec_block_delivers (oa := oa) hphase hr hb (by rwa [hout, State.runChain_out, hlen])
  rw [hout, State.runChain_out] at hstored hcount
  rw [hout, State.runChain_lb] at hlb
  rw [hout, State.runChain_wb] at hwb
  rw [hout, State.runChain_hasWb] at hhas
  exact ⟨t, hexec, hstored, hlb, hstatus, BitVec.eq_of_toNat_eq (hcount.trans hlen),
    htphase.trans hphase, hhas, hwb, hconf⟩

/-- Settles O24: no input gives no output and leaves the state, so only the response is written. -/
theorem blockOfNothingChangesNothing : Obligations.BlockOfNothingChangesNothing := by
  intro s ia oa hphase
  have hout : blockOutput (s.mem.readBytes ia.toNat (0 : Word).toNat) s = ([], s) :=
    blockOutput_nil s
  have hexec := exec_block_output (ia := ia) (ic := 0) (oa := oa) hphase (admits_zero _ _ _)
    (by unfold BlockCountFault; decide) (by rw [hout]; exact admits_zero _ _ _)
  rw [hout] at hexec
  exact hexec

/-- Without padding FINAL outputs Chain of its input, in either direction (R113). -/
theorem finalOutput_noPadding {m : List Byte} {s : State} (hp : s.pad = .none) :
    (finalOutput m s).1 = some (chain s.pipeline s.lb m).1 := by
  rw [finalOutput, if_pos hp]
  exact congrArg some (s.runChain_out m)

/-- Settles O26: without padding FINAL delivers Chain of its input and closes the message. -/
theorem finalWithoutPadding : Obligations.FinalWithoutPadding := by
  intro s ia ic oa hphase hp hb hr hw
  have hlen := length_chain_readBytes s.pipeline s.lb s.mem ia.toNat (n := ic.toNat)
    (by simp only [FinalCountFault, hp, or_true, true_and] at hb; omega)
  obtain ⟨t, hexec, ⟨hstored, hstatus, hcount, htphase, hconf⟩, hclosed⟩ :=
    exec_final_delivers (oa := oa) hphase hr hb (finalOutput_noPadding hp) (by rwa [hlen])
  exact ⟨t, hexec, hstored, hstatus, BitVec.eq_of_toNat_eq (hcount.trans hlen),
    htphase.trans hphase, hclosed, hconf⟩

/-! The engine between two messages. -/

/-- The pipeline stands ready and no message is in progress. -/
def AtMessageStart (t : State) : Prop := t.phase = .ready ∧ MessageClosed t

theorem atMessageStart_of_load_ok {dir : Direction} {mode pad : BitVec 3} {ka kl va vl : Word}
    {s t : State} (h : exec (.load dir mode pad ka kl va vl) s = .next t) (hok : t.status = .ok) :
    AtMessageStart t := by
  rcases exec_load_next h with ⟨-, rfl⟩ | ⟨-, m, p, k, iv, -, -, rfl⟩
  · cases hok
  · exact ⟨rfl, rfl, rfl, rfl⟩

theorem atMessageStart_of_final_ok {ia ic oa : Word} {s t : State}
    (h : exec (.final ia ic oa) s = .next t) (hok : t.status = .ok) : AtMessageStart t := by
  rcases exec_final_next h with
    ⟨-, rfl⟩ | ⟨-, -, rfl⟩ | ⟨r, rfl, hphase, -, -, ⟨-, rfl⟩ | ⟨out, -, -, rfl⟩⟩
  · cases hok
  · cases hok
  · cases hok
  · exact ⟨(finalOutput_phase _ s).trans hphase, rfl, rfl, rfl⟩

/-- Between two messages the configuration, the round keys, IV and STATUS fix every register but COUNT
and X. -/
theorem eq_of_atMessageStart {t u : State} (ht : AtMessageStart t) (hu : AtMessageStart u)
    (hdir : t.dir = u.dir) (hmode : t.mode = u.mode) (hpad : t.pad = u.pad) (hrk : t.rk = u.rk)
    (hiv : t.iv = u.iv) (hstatus : t.status = u.status) :
    t = { u with
      count := t.count, x := t.x, mem := t.mem, platform := t.platform, host := t.host,
      draws := t.draws } := by
  obtain ⟨htphase, htlb, hthas, htwb⟩ := ht
  obtain ⟨huphase, hulb, huhas, huwb⟩ := hu
  have hphase : t.phase = u.phase := htphase.trans huphase.symm
  have hlb : t.lb = u.lb := htlb.trans (hiv.trans hulb.symm)
  have hhas : t.hasWb = u.hasWb := hthas.trans huhas.symm
  have hwb : t.wb = u.wb := htwb.trans huwb.symm
  rw [← hphase, ← hdir, ← hmode, ← hpad, ← hrk, ← hiv, ← hlb, ← hwb, ← hhas, ← hstatus]

/-- Settles O29: LOAD and FINAL both leave the engine at the start of a message, and FINAL keeps the
configuration of the state it starts from. -/
theorem finalLeavesTheLoadedState : Obligations.FinalLeavesTheLoadedState := by
  rintro s₀ s₁ s t dir mode pad ka kl va vl ia ic oa hload hok₁ hfinal hok
    ⟨hdir, hmode, hpad, hrk, hiv⟩
  obtain ⟨⟨htdir, htmode, htpad, htrk, htiv, -, -⟩, -, -⟩ := exec_final_frame hfinal
  exact eq_of_atMessageStart (atMessageStart_of_final_ok hfinal hok)
    (atMessageStart_of_load_ok hload hok₁) (htdir.trans hdir) (htmode.trans hmode)
    (htpad.trans hpad) (htrk.trans hrk) (htiv.trans hiv) (hok.trans hok₁.symm)

end Sys2Proof.Machine
end

section
/-! SUPPORT. The errors (60_exceptions.md R131 to R140): which response each command gives and why, what
the three error entries leave, and the ways out of FAILED. -/

namespace Sys2Proof.Machine

open Sys2Proof.Safety

/-! Where a command raises an error before it touches memory. -/

theorem exec_load_badConfiguration {dir : Direction} {mode pad : BitVec 3} {ka kl va vl : Word}
    (hc : ConfigurationFault mode pad kl vl) (s : State) :
    exec (.load dir mode pad ka kl va vl) s = .next (s.discard.raise .configuration) := by
  simp only [exec, execLoad, loadConfiguration_eq_none.2 hc]

theorem exec_block_badCount {ia ic oa : Word} {s : State} (hp : s.phase = .ready)
    (hb : BlockCountFault ic.toNat) :
    exec (.block ia ic oa) s = .next (s.raise .usageInMessage) := by
  rw [← badBlockCount_iff] at hb
  simp [exec, execBlock, hp, hb]

theorem exec_block_refused {s : State} (hp : s.phase ≠ .ready) (ia ic oa : Word) :
    exec (.block ia ic oa) s = .next (s.raise .usageRefused) := if_pos hp

theorem exec_final_refused {s : State} (hp : s.phase ≠ .ready) (ia ic oa : Word) :
    exec (.final ia ic oa) s = .next (s.raise .usageRefused) := if_pos hp

/-- Settles O9: LOAD has discarded the pipeline before it finds the fault, so the entry of R135 writes
the response to a reset engine. -/
theorem loadWithABadConfigurationClearsTheEngine :
    Obligations.LoadWithABadConfigurationClearsTheEngine :=
  fun s _ _ _ _ _ _ _ hc => exec_load_badConfiguration hc s

/-- Settles O12: a bad count fails the message (R136 (a)), and every other cause only writes the
response (R136 (b)). -/
theorem usageErrorEntry : Obligations.UsageErrorEntry := fun s ia ic oa =>
  ⟨exec_block_badCount, exec_final_badCount,
    fun hp => ⟨exec_block_refused hp ia ic oa, exec_final_refused hp ia ic oa⟩,
    fun _ hill => runCommand_of_illegalWord hill s⟩

/-! The response of each command, with its cause. -/

/-- A next state of the command port is that of an illegal descriptor or of the decoded command. -/
theorem runCommand_next {d : Descriptor} {s t : State} (h : runCommand d s = .next t) :
    (∃ e, decode d = .error e ∧ t = s.raise .usageRefused) ∨
      ∃ i, decode d = .ok i ∧ exec i s = .next t := by
  rcases runCommand_cases d s with ⟨e, hd, hr⟩ | ⟨i, hd, hr⟩ <;> rw [hr] at h
  · cases h
    exact .inl ⟨e, hd, rfl⟩
  · exact .inr ⟨i, hd, h⟩

/-- LOAD responds ConfigurationError or OK, and its phase says which (R111, R131). -/
theorem exec_load_response {dir : Direction} {mode pad : BitVec 3} {ka kl va vl : Word} {s t : State}
    (h : exec (.load dir mode pad ka kl va vl) s = .next t) :
    (ConfigurationFault mode pad kl vl ∧ t.status = .configurationError ∧ t.phase = .unbuilt) ∨
    (¬ConfigurationFault mode pad kl vl ∧ t.status = .ok ∧ t.phase = .ready) := by
  rcases exec_load_next h with ⟨hc, rfl⟩ | ⟨hc, m, p, k, iv, -, -, rfl⟩
  · exact .inl ⟨hc, rfl, rfl⟩
  · exact .inr ⟨hc, rfl, rfl⟩

/-- BLOCK responds UsageError or OK (R112, R132). -/
theorem exec_block_response {ia ic oa : Word} {s t : State}
    (h : exec (.block ia ic oa) s = .next t) :
    ((s.phase ≠ .ready ∨ BlockCountFault ic.toNat) ∧ t.status = .usageError) ∨
    (s.phase = .ready ∧ ¬BlockCountFault ic.toNat ∧ t.status = .ok) := by
  rcases exec_block_next h with ⟨hp, rfl⟩ | ⟨-, hb, rfl⟩ | ⟨r, -, hp, hb, -, -, rfl⟩
  · exact .inl ⟨.inl hp, rfl⟩
  · exact .inl ⟨.inr hb, rfl⟩
  · exact .inr ⟨hp, hb, rfl⟩

/-- FINAL responds UsageError, PaddingValidationError or OK (R113, R132, R133). -/
theorem exec_final_response {ia ic oa : Word} {s t : State}
    (h : exec (.final ia ic oa) s = .next t) :
    ((s.phase ≠ .ready ∨ FinalCountFault s ic.toNat) ∧ t.status = .usageError) ∨
    (s.phase = .ready ∧ ¬FinalCountFault s ic.toNat ∧
      ((t.status = .paddingValidationError ∧
          (finalOutput (s.mem.readBytes ia.toNat ic.toNat) s).1 = none ∧
          t = (finalOutput (s.mem.readBytes ia.toNat ic.toNat) s).2.raise .padding) ∨
        t.status = .ok)) := by
  rcases exec_final_next h with
    ⟨hp, rfl⟩ | ⟨-, hb, rfl⟩ | ⟨r, rfl, hp, hb, -, ⟨hn, rfl⟩ | ⟨out, -, -, rfl⟩⟩
  · exact .inl ⟨.inl hp, rfl⟩
  · exact .inl ⟨.inr hb, rfl⟩
  · exact .inr ⟨hp, hb, .inl ⟨rfl, hn, rfl⟩⟩
  · exact .inr ⟨hp, hb, .inr rfl⟩

/-- Settles O10: of the responses of the commands only LOAD's can be ConfigurationError. -/
theorem configurationErrorComesOnlyFromLoad : Obligations.ConfigurationErrorComesOnlyFromLoad := by
  intro s t d h ht
  rcases runCommand_next h with ⟨e, -, rfl⟩ | ⟨i, hd, hexec⟩
  · cases ht
  cases i with
  | load dir mode pad ka kl va vl =>
    rcases exec_load_response hexec with ⟨hc, -, -⟩ | ⟨-, hst, -⟩
    · exact ⟨dir, mode, pad, ka, kl, va, vl, hd, hc⟩
    · simp [hst] at ht
  | block ia ic oa =>
    rcases exec_block_response hexec with ⟨-, hst⟩ | ⟨-, -, hst⟩ <;> simp [hst] at ht
  | final ia ic oa =>
    rcases exec_final_response hexec with ⟨-, hst⟩ | ⟨-, -, ⟨hst, -⟩ | hst⟩ <;> simp [hst] at ht

/-- Settles O13: each command responds UsageError in the one case whose condition is that of R132. -/
theorem usageErrorExactlyForItsCauses : Obligations.UsageErrorExactlyForItsCauses := by
  intro s t d h
  rcases runCommand_next h with ⟨e, hd, rfl⟩ | ⟨i, hd, hexec⟩
  · simp [hd]
  cases i with
  | load dir mode pad ka kl va vl =>
    rcases exec_load_response hexec with ⟨-, hst, -⟩ | ⟨-, hst, -⟩ <;> simp [hd, hst]
  | block ia ic oa =>
    rcases exec_block_response hexec with ⟨hcause, hst⟩ | ⟨hp, hb, hst⟩
    · simp only [hd, hst, hcause]
    · simp [hd, hst, hp, hb]
  | final ia ic oa =>
    rcases exec_final_response hexec with ⟨hcause, hst⟩ | ⟨hp, hb, ⟨hst, -⟩ | hst⟩
    · simp only [hd, hst, hcause]
    · simp [hd, hst, hp, hb]
    · simp [hd, hst, hp, hb]

/-! PaddingValidationError. -/

/-- Of whole blocks, only no block at all leaves an empty tail (R105). -/
theorem fullTail_eq_nil {m : List Byte} {s : State} (hm : m.length % 16 = 0)
    (h : fullTail m s = []) : m.length = 0 ∧ s.hasWb = false := by
  have hlen := length_fullTail m s
  rw [h, List.length_nil] at hlen
  cases hw : s.hasWb with
  | false => exact ⟨by omega, rfl⟩
  | true =>
    rw [hw, if_pos rfl] at hlen
    omega

/-- Zeros rejects no block (R103). -/
theorem pad_ne_zeros_of_rejected {pad : Padding} {last : Block} (h : validate pad last = none) :
    pad ≠ .zeros := by
  rintro rfl
  cases h

/-- Settles O14: FINAL responds so only where it has no output, which on decrypt is an empty tail or a
rejected last block. -/
theorem paddingErrorOnlyForItsCauses : Obligations.PaddingErrorOnlyForItsCauses := by
  intro s t d h ht
  rcases runCommand_next h with ⟨e, -, rfl⟩ | ⟨i, hd, hexec⟩
  · cases ht
  cases i with
  | load dir mode pad ka kl va vl =>
    rcases exec_load_response hexec with ⟨-, hst, -⟩ | ⟨-, hst, -⟩ <;> simp [hst] at ht
  | block ia ic oa =>
    rcases exec_block_response hexec with ⟨-, hst⟩ | ⟨-, -, hst⟩ <;> simp [hst] at ht
  | final ia ic oa =>
    rcases exec_final_response hexec with ⟨-, hst⟩ | ⟨hp, hb, ⟨-, hnone, -⟩ | hst⟩
    · simp [hst] at ht
    · obtain ⟨hdir, hpad, hcause⟩ := finalOutput_eq_none hnone
      refine ⟨ia, ic, oa, hd, hp, hdir, hpad, hcause.imp (fun hempty => ?_) fun ⟨_, hv⟩ => ?_⟩
      · have hwhole : ic.toNat % 16 = 0 := by
          simp only [FinalCountFault, hdir, true_or, true_and] at hb
          omega
        obtain ⟨hic, hwb⟩ := fullTail_eq_nil (by rwa [Memory.length_readBytes]) hempty
        rw [Memory.length_readBytes] at hic
        exact ⟨BitVec.eq_of_toNat_eq hic, hwb⟩
      · rw [fullTail, State.runChain_out] at hv
        exact ⟨pad_ne_zeros_of_rejected hv, hv⟩
    · simp [hst] at ht

/-- What PaddingValidationError leaves is the error entry of the state FINAL started from, X and the draw
counter apart: Chain moves LB and X only, and the entry sets LB (R137). -/
theorem eq_raise_of_paddingError {ia ic oa : Word} {s t : State}
    (h : exec (.final ia ic oa) s = .next t) (ht : t.status = .paddingValidationError) :
    t = { s.raise .padding with x := t.x, draws := t.draws } := by
  rcases exec_final_response h with ⟨-, hst⟩ | ⟨-, -, ⟨-, -, rfl⟩ | hst⟩
  · simp [hst] at ht
  · simp [State.failMessage, State.closeMessage, State.respond]
  · simp [hst] at ht

/-- Settles O15: the entry of R137 reads nothing of memory, so two FINALs that end in it leave the same
registers. -/
theorem paddingErrorEntry : Obligations.PaddingErrorEntry := by
  intro s t ia ic oa h ht
  have heq := eq_raise_of_paddingError h ht
  obtain ⟨hconf, -, -⟩ := exec_final_frame h
  have hmem := congrArg State.mem heq
  refine ⟨congrArg State.phase heq, ?_, hconf, congrArg State.count heq, hmem, ?_⟩
  · rw [heq]
    exact ⟨rfl, rfl, rfl⟩
  · intro m u ia' ic' oa' hu hust
    calc u = { ({ s with mem := m } : State).raise .padding with x := u.x, draws := u.draws } :=
          eq_raise_of_paddingError hu hust
      _ = { t with mem := m, x := u.x, draws := u.draws } := by rw [heq]; rfl

/-! Every error. -/

/-- A command that ends in an error raised it on a state with the memory it started from (R134). -/
theorem exec_error {i : Instr} {s t : State} (h : exec i s = .next t) (hne : t.status ≠ .ok) :
    ∃ u e, u.mem = s.mem ∧ t = State.raise u e := by
  cases i with
  | load dir mode pad ka kl va vl =>
    rcases exec_load_next h with ⟨-, rfl⟩ | ⟨-, m, p, k, iv, -, -, rfl⟩
    · exact ⟨s.discard, _, rfl, rfl⟩
    · exact absurd rfl hne
  | block ia ic oa =>
    rcases exec_block_next h with ⟨-, rfl⟩ | ⟨-, -, rfl⟩ | ⟨r, -, -, -, -, -, rfl⟩
    · exact ⟨s, _, rfl, rfl⟩
    · exact ⟨s, _, rfl, rfl⟩
    · exact absurd rfl hne
  | final ia ic oa =>
    rcases exec_final_next h with
      ⟨-, rfl⟩ | ⟨-, -, rfl⟩ | ⟨r, rfl, -, -, -, ⟨-, rfl⟩ | ⟨out, -, -, rfl⟩⟩
    · exact ⟨s, _, rfl, rfl⟩
    · exact ⟨s, _, rfl, rfl⟩
    · exact ⟨_, _, finalOutput_mem _ s, rfl⟩
    · exact absurd rfl hne

/-- Settles O17: every error is raised by `State.raise`, which writes no memory and counts 0. -/
theorem errorsWriteNothing : Obligations.ErrorsWriteNothing := by
  intro s t d h hne
  have hraised : ∃ u e, u.mem = s.mem ∧ t = State.raise u e := by
    rcases runCommand_next h with ⟨e, -, rfl⟩ | ⟨i, -, hexec⟩
    · exact ⟨s, _, rfl, rfl⟩
    · exact exec_error hexec hne
  obtain ⟨u, e, hmem, rfl⟩ := hraised
  obtain ⟨hraise, -, -, -, hcount⟩ := u.raise_frame e
  exact ⟨hraise.trans hmem, hcount⟩

/-! The ways out of FAILED. -/

@[simp] theorem abandonCommand_phase (d : Descriptor) (s : State) :
    (abandonCommand d s).phase = .unbuilt := by
  unfold abandonCommand
  cases runCommand d s <;> rfl

/-- The event issued a LOAD, whose response tells the phase of `t` (R111). -/
def IssuedLoad (e : HostEvent) (t : State) : Prop :=
  ∃ d dir mode pad ka kl va vl, (e = .command d ∨ e = .commandIfOk d) ∧
    decode d = .ok (.load dir mode pad ka kl va vl) ∧
    (t.phase = .ready ↔ t.status = .ok) ∧ (t.phase = .unbuilt ↔ t.status ≠ .ok)

/-- Outside READY every command but LOAD is refused, which keeps the phase. -/
theorem issuedLoad_of_leaves_failed {e : HostEvent} {d : Descriptor} {s t : State}
    (he : e = .command d ∨ e = .commandIfOk d) (hs : s.phase = .failed)
    (h : runCommand d s = .next t) (ht : t.phase ≠ .failed) : IssuedLoad e t := by
  have hready : s.phase ≠ .ready := by simp [hs]
  rcases runCommand_next h with ⟨-, -, rfl⟩ | ⟨i, hd, hexec⟩
  · exact absurd hs ht
  cases i with
  | load dir mode pad ka kl va vl =>
    refine ⟨d, dir, mode, pad, ka, kl, va, vl, he, hd, ?_⟩
    rcases exec_load_response hexec with ⟨-, hst, hp⟩ | ⟨-, hst, hp⟩ <;> simp [hst, hp]
  | block ia ic oa =>
    cases (exec_block_refused hready ia ic oa).symm.trans hexec
    exact absurd hs ht
  | final ia ic oa =>
    cases (exec_final_refused hready ia ic oa).symm.trans hexec
    exact absurd hs ht

/-- A reset leaves UNBUILT; a store, and a command that is not issued, keep the phase. -/
theorem hostEvent_leaves_failed {e : HostEvent} {s t : State} (hs : s.phase = .failed)
    (h : hostEvent e s = .next t) (ht : t.phase ≠ .failed) :
    (e = .reset ∧ t.phase = .unbuilt) ∨ (∃ d, e = .resetDuring d ∧ t.phase = .unbuilt) ∨
      IssuedLoad e t := by
  cases e with
  | command d => exact .inr (.inr (issuedLoad_of_leaves_failed (.inl rfl) hs h ht))
  | commandIfOk d =>
    simp only [hostEvent] at h
    split at h
    · exact .inr (.inr (issuedLoad_of_leaves_failed (.inr rfl) hs h ht))
    · cases h
      exact absurd hs ht
  | store addr bytes =>
    simp only [hostEvent, hostStore] at h
    split at h <;> cases h
    exact absurd hs ht
  | reset =>
    cases h
    exact .inl ⟨rfl, rfl⟩
  | resetDuring d =>
    cases h
    exact .inr (.inl ⟨d, rfl, abandonCommand_phase d s⟩)

/-- Settles O19: an idle engine keeps its phase, and the host's next event leaves FAILED only as
`hostEvent_leaves_failed` says. -/
theorem failedIsLeftOnlyByLoadOrReset : Obligations.FailedIsLeftOnlyByLoadOrReset := by
  intro s t hs h ht
  unfold step at h
  split at h
  · cases h
    exact absurd hs ht
  · next e rest hhost =>
    exact ⟨e, rest, hhost, hostEvent_leaves_failed (s := { s with host := rest }) hs h ht⟩

end Sys2Proof.Machine
end

section
/-! SUPPORT. The two kinds of reset (R150): what a reset event leaves of the engine, and what a command
cut short has left in memory. -/

namespace Sys2Proof.Machine

open Sys2Proof.Safety

/-! What a completed command leaves of the platform and of the host's sequence. -/

theorem exec_host {i : Instr} {s t : State} (h : exec i s = .next t) : t.host = s.host := by
  cases i with
  | load dir mode pad ka kl va vl =>
    obtain ⟨-, -, hhost, -⟩ := exec_load_frame h
    exact hhost
  | block ia ic oa =>
    obtain ⟨⟨-, -, -, -, -, -, hhost⟩, -, -⟩ := exec_block_frame h
    exact hhost
  | final ia ic oa =>
    obtain ⟨⟨-, -, -, -, -, -, hhost⟩, -, -⟩ := exec_final_frame h
    exact hhost

theorem runCommand_host {d : Descriptor} {s t : State} (h : runCommand d s = .next t) :
    t.host = s.host := by
  rcases runCommand_next h with ⟨e, -, rfl⟩ | ⟨i, -, hexec⟩
  · rfl
  · exact exec_host hexec

theorem runCommand_platform {d : Descriptor} {s t : State} (h : runCommand d s = .next t) :
    t.platform = s.platform := by
  obtain ⟨hplatform, -⟩ := runCommand_storesAdmitted h
  exact hplatform

/-! A reset event. -/

theorem engineAtReset_resetEngine (s : State) : EngineAtReset s.resetEngine :=
  ⟨rfl, rfl, rfl, rfl, rfl, rfl, rfl, rfl, rfl, rfl, rfl⟩

theorem step_reset {s : State} {rest : List HostEvent} (h : s.host = .reset :: rest) :
    step s = .next { s with host := rest }.resetEngine := by
  rw [step, h]
  rfl

theorem step_resetDuring {s : State} {d : Descriptor} {rest : List HostEvent}
    (h : s.host = .resetDuring d :: rest) :
    step s = .next (abandonCommand d { s with host := rest }) := by
  rw [step, h]
  rfl

/-! A command cut short. -/

/-- A command that would have completed leaves a blend of the two memories; one that is stuck leaves
the engine reset and no more (assumption 8). -/
theorem abandonCommand_cases (d : Descriptor) (s : State) :
    (∃ t, runCommand d s = .next t ∧ abandonCommand d s =
      { t.resetEngine with
        mem := s.mem.blend t.mem (Config.resetKept t.draws), draws := t.draws + 1 }) ∨
    abandonCommand d s = s.resetEngine := by
  unfold abandonCommand
  cases h : runCommand d s with
  | next t => exact .inl ⟨t, rfl, rfl⟩
  | fault f => exact .inr rfl
  | refused r => exact .inr rfl

theorem engineAtReset_abandonCommand (d : Descriptor) (s : State) :
    EngineAtReset (abandonCommand d s) := by
  rcases abandonCommand_cases d s with ⟨t, -, h⟩ | h <;> rw [h]
  · exact engineAtReset_resetEngine t
  · exact engineAtReset_resetEngine s

@[simp] theorem abandonCommand_platform (d : Descriptor) (s : State) :
    (abandonCommand d s).platform = s.platform := by
  rcases abandonCommand_cases d s with ⟨t, hrun, h⟩ | h <;> rw [h]
  · exact (runCommand_platform hrun :)
  · rfl

@[simp] theorem abandonCommand_host (d : Descriptor) (s : State) :
    (abandonCommand d s).host = s.host := by
  rcases abandonCommand_cases d s with ⟨t, hrun, h⟩ | h <;> rw [h]
  · exact (runCommand_host hrun :)
  · rfl

/-- At each address stands the old byte, or the byte the completed command would have left. -/
theorem read_abandonCommand (d : Descriptor) (s : State) (a : Nat) :
    (abandonCommand d s).mem.read a = s.mem.read a ∨
      ∃ u, runCommand d s = .next u ∧ (abandonCommand d s).mem.read a = u.mem.read a := by
  rcases abandonCommand_cases d s with ⟨t, hrun, h⟩ | h <;> rw [h]
  · have hblend := Memory.read_blend s.mem t.mem (Config.resetKept t.draws) a
    split at hblend
    · exact .inr ⟨t, hrun, hblend⟩
    · exact .inl hblend
  · exact .inl rfl

/-- Settles O8: a reset event is `State.resetEngine`, and a reset in the middle of a command is
`abandonCommand`, whose memory is the old one or a blend of the old and the new. -/
theorem resetAtAnyTime : Obligations.ResetAtAnyTime := by
  intro s rest
  refine ⟨fun hhost => ?_, fun d hhost => ?_⟩
  · exact ⟨_, step_reset hhost, engineAtReset_resetEngine _, rfl, rfl, rfl⟩
  · exact ⟨_, step_resetDuring hhost, engineAtReset_abandonCommand d _,
      abandonCommand_platform d _, abandonCommand_host d _, read_abandonCommand d _⟩

end Sys2Proof.Machine
end

section
/-! SUPPORT. The phase machine (R143): the phase each command leaves with each response. -/

namespace Sys2Proof.Machine

/-- A command outside READY is refused, which keeps the phase (R136 (b)). -/
theorem refused_row (s : State) :
    (s.raise .usageRefused).status = .usageError ∧ (s.raise .usageRefused).phase = s.phase :=
  ⟨rfl, rfl⟩

theorem exec_block_row {ia ic oa : Word} {s t : State} (h : exec (.block ia ic oa) s = .next t) :
    if s.phase = .ready then
      (t.status = .ok ∧ t.phase = .ready) ∨ (t.status = .usageError ∧ t.phase = .failed)
    else t.status = .usageError ∧ t.phase = s.phase := by
  rcases exec_block_next h with ⟨hp, rfl⟩ | ⟨hp, -, rfl⟩ | ⟨r, rfl, hp, -, -, -, rfl⟩
  · rw [if_neg hp]
    exact refused_row s
  · rw [if_pos hp]
    exact .inr ⟨rfl, rfl⟩
  · rw [if_pos hp]
    exact .inl ⟨rfl, (blockOutput_phase _ s).trans hp⟩

theorem exec_final_row {ia ic oa : Word} {s t : State} (h : exec (.final ia ic oa) s = .next t) :
    if s.phase = .ready then
      (t.status = .ok ∧ t.phase = .ready ∧ t.lb = t.iv ∧ t.hasWb = false) ∨
        (t.status = .usageError ∧ t.phase = .failed) ∨
        (t.status = .paddingValidationError ∧ t.phase = .failed)
    else t.status = .usageError ∧ t.phase = s.phase := by
  rcases exec_final_next h with
    ⟨hp, rfl⟩ | ⟨hp, -, rfl⟩ | ⟨r, rfl, hp, -, -, ⟨-, rfl⟩ | ⟨out, -, -, rfl⟩⟩
  · rw [if_neg hp]
    exact refused_row s
  · rw [if_pos hp]
    exact .inr (.inl ⟨rfl, rfl⟩)
  · rw [if_pos hp]
    exact .inr (.inr ⟨rfl, rfl⟩)
  · rw [if_pos hp]
    exact .inl ⟨rfl, (finalOutput_phase _ s).trans hp, rfl, rfl⟩

/-- Settles O18: an illegal descriptor is refused, and each command answers in the rows of its own
next states. -/
theorem phaseMachine : Obligations.PhaseMachine := by
  intro s t d h
  rcases runCommand_next h with ⟨e, hd, rfl⟩ | ⟨i, hd, hexec⟩
  · rw [hd]
    exact refused_row s
  rw [hd]
  cases i with
  | load dir mode pad ka kl va vl =>
    rcases exec_load_response hexec with ⟨-, hst, hp⟩ | ⟨-, hst, hp⟩
    · exact .inr ⟨hst, hp⟩
    · exact .inl ⟨hst, hp⟩
  | block ia ic oa => exact exec_block_row hexec
  | final ia ic oa => exact exec_final_row hexec

end Sys2Proof.Machine
end

section
/-! SUPPORT. What the mode layer shows and spreads (R87 (a), (c)): the blocks of a CBC message, each with
the block it is chained to. -/

namespace Sys2Proof.Machine

theorem xorBlocks_left_inj {a b c : Block} : xorBlocks a b = xorBlocks a c ↔ b = c := by
  refine ⟨fun h => ?_, congrArg (xorBlocks a)⟩
  rw [← xorBlocks_cancel b a, xorBlocks_comm b a, h, xorBlocks_comm a c, xorBlocks_cancel]

theorem xorBlocks_right_inj {a b c : Block} : xorBlocks a c = xorBlocks b c ↔ a = b := by
  rw [xorBlocks_comm a, xorBlocks_comm b, xorBlocks_left_inj]

/-- The block in the middle drops out. -/
theorem xorBlocks_xorBlocks (a b c : Block) :
    xorBlocks (xorBlocks a b) (xorBlocks b c) = xorBlocks a c := by
  apply Vector.ext
  intro i hi
  simp [xorBlocks, BitVec.xor_assoc]

theorem blockTransform_inj {rk : RoundKeys} {a b : Block} :
    blockTransform rk a = blockTransform rk b ↔ a = b :=
  (blockTransformIsABijection rk).injective.eq_iff

/-- Settles O43: under CBC the second block is chained to the first ciphertext block where the first is
chained to the IV, and the block transform is injective. -/
theorem equalBlocksShowUnderEcbOnly : Obligations.EqualBlocksShowUnderEcbOnly := by
  intro rk iv b
  refine ⟨⟨_, rfl⟩, _, _, rfl, ?_⟩
  calc blockTransform rk (xorBlocks b iv) =
          blockTransform rk (xorBlocks b (blockTransform rk (xorBlocks b iv)))
      ↔ iv = blockTransform rk (xorBlocks b iv) := blockTransform_inj.trans xorBlocks_left_inj
    _ ↔ blockTransform rk (xorBlocks b iv) = iv := eq_comm

/-- CBC decryption: each block is transformed, and chained to the ciphertext block before it, the first
to LB (R83). -/
theorem chainBlocks_cbc_decrypt (rk : RoundKeys) (lb : Block) (cs : List Block) :
    (chainBlocks ⟨.cbc, .decrypt, rk⟩ lb cs).1 =
      List.zipWith (fun c l => xorBlocks (blockTransform rk c) l) cs (lb :: cs) := by
  induction cs generalizing lb with
  | nil => rfl
  | cons c cs ih => exact congrArg (xorBlocks (blockTransform rk c) lb :: ·) (ih c)

theorem getElem?_chainBlocks_cbc_decrypt (rk : RoundKeys) (lb : Block) (cs : List Block) (j : Nat) :
    (chainBlocks ⟨.cbc, .decrypt, rk⟩ lb cs).1[j]? =
      cs[j]?.bind fun c => (lb :: cs)[j]?.map (xorBlocks (blockTransform rk c)) := by
  rw [chainBlocks_cbc_decrypt, List.getElem?_zipWith]
  cases cs[j]? <;> cases (lb :: cs)[j]? <;> rfl

/-- Settles O44: ciphertext block `i` is transformed at place `i`, chained to at place `i + 1`, and
read nowhere else. -/
theorem cbcErrorPropagation : Obligations.CbcErrorPropagation := by
  intro rk iv c cs i hi hc
  simp only [getElem?_chainBlocks_cbc_decrypt, ← List.set_cons_succ]
  refine ⟨?_, ?_, fun j hji hji' => ?_⟩
  · have hchain : i < (iv :: cs).length := Nat.lt_succ_of_lt hi
    rw [List.getElem?_set_self hi, List.getElem?_set_ne i.succ_ne_self,
      List.getElem?_eq_getElem hi, List.getElem?_eq_getElem hchain]
    simpa [xorBlocks_right_inj, blockTransform_inj] using hc
  · have hchain : i + 1 < (iv :: cs).length := Nat.succ_lt_succ hi
    rw [List.getElem?_set_ne i.succ_ne_self.symm, List.getElem?_set_self hchain,
      List.getElem?_cons_succ, List.getElem?_eq_getElem hi]
    cases cs[i + 1]? with
    | none => rfl
    | some d => simp [xorBlocks_xorBlocks]
  · rw [List.getElem?_set_ne (Ne.symm hji), List.getElem?_set_ne (Ne.symm hji')]

end Sys2Proof.Machine
end

section
/-! SUPPORT. The canonical form of memory: what a memory lists is told by its reads. -/

namespace Sys2Proof.Machine

@[simp] theorem Memory.read_head (k : Nat) (v : Byte) (m : Memory) :
    Memory.read ((k, v) :: m) k = v :=
  if_pos rfl

/-- In canonical form the first address listed is the lowest that is listed. -/
theorem Memory.le_of_read_ne {k a : Nat} {v : Byte} {m : Memory}
    (hwf : Memory.wf ((k, v) :: m) = true)
    (ha : Memory.read ((k, v) :: m) a ≠ Memory.unlisted a) : k ≤ a := by
  obtain ⟨-, hlt, -⟩ := (Memory.wf_cons k v m).mp hwf
  by_contra hak
  refine ha (Memory.read_unlisted fun c hc => ?_)
  rcases List.mem_cons.mp hc with rfl | hc
  · rintro rfl
    exact hak le_rfl
  · rintro rfl
    exact hak (hlt c hc).le

/-- Behind a first address that both list, neither lists that address again. -/
theorem Memory.read_tail_eq {k : Nat} {v v' : Byte} {m m' : Memory} (hlt : ∀ c ∈ m, k < c.1)
    (hlt' : ∀ c ∈ m', k < c.1)
    (h : ∀ a, Memory.read ((k, v) :: m) a = Memory.read ((k, v') :: m') a) (a : Nat) :
    m.read a = m'.read a := by
  by_cases ha : a = k
  · subst ha
    rw [Memory.read_unlisted fun c hc => (hlt c hc).ne',
      Memory.read_unlisted fun c hc => (hlt' c hc).ne']
  · simpa only [Memory.read_cons, if_neg ha] using h a

/-- A memory in canonical form that lists something does not read as the empty one. -/
theorem Memory.not_read_eq_nil {k : Nat} {v : Byte} {m : Memory}
    (hwf : Memory.wf ((k, v) :: m) = true) :
    ¬∀ a, Memory.read ((k, v) :: m) a = Memory.read [] a := by
  obtain ⟨hv, -, -⟩ := (Memory.wf_cons k v m).mp hwf
  exact fun h => hv ((Memory.read_head k v m).symm.trans (h k))

/-- Settles O56, entry by entry: the first address listed is the lowest that reads otherwise than an
unlisted one, so it is the same in both, and its byte is what it reads as. -/
theorem canonicalMemoryIsItsBytes : Obligations.CanonicalMemoryIsItsBytes := by
  intro m
  induction m with
  | nil =>
    intro m' _ hwf' h
    cases m' with
    | nil => rfl
    | cons c' m' => exact absurd (fun a => (h a).symm) (Memory.not_read_eq_nil hwf')
  | cons c m ih =>
    intro m' hwf hwf' h
    cases m' with
    | nil => exact absurd h (Memory.not_read_eq_nil hwf)
    | cons c' m' =>
      obtain ⟨k, v⟩ := c
      obtain ⟨k', v'⟩ := c'
      obtain ⟨hv, hlt, hm⟩ := (Memory.wf_cons k v m).mp hwf
      obtain ⟨hv', hlt', hm'⟩ := (Memory.wf_cons k' v' m').mp hwf'
      have hk : k = k' := by
        apply le_antisymm
        · exact Memory.le_of_read_ne hwf (by simpa [h k'] using hv')
        · exact Memory.le_of_read_ne hwf' (by simpa [← h k] using hv)
      subst hk
      have hbyte : v = v' := by simpa using h k
      rw [hbyte, ih m' hm hm' (Memory.read_tail_eq hlt hlt' h)]

end Sys2Proof.Machine
end

section
/-! SUPPORT. The step on a decoded command (R5, R45, R59). -/

namespace Sys2Proof.Machine

theorem runCommand_of_decode {d : Descriptor} {i : Instr} (h : decode d = .ok i) (s : State) :
    runCommand d s = exec i s := by
  rw [runCommand, h]

/-- Settles O5: both events run the command of their descriptor, which decodes to `i`. -/
theorem stepRunsTheDecodedCommand : Obligations.StepRunsTheDecodedCommand := by
  intro s d i rest hd
  refine ⟨fun hhost => ?_, fun hhost => ?_⟩
  · rw [step_command hhost, runCommand_of_decode hd]
  · rw [step_commandIfOk hhost, runCommand_of_decode hd]

end Sys2Proof.Machine
end

section
/-! SUPPORT. The constants of the SM4 core (R60 to R62) and its known answer (R71). -/

namespace Sys2Proof.Machine

/-- Settles O30: the S-box has an inverse table, and the entries and constants are evaluated. -/
theorem constantTables : Obligations.ConstantTables :=
  ⟨Finite.injective_iff_bijective.mp sbox_injective, by decide, by decide, rfl, by decide⟩

/-- Settles O39, by evaluation of the 64 rounds. -/
theorem knownAnswer : Obligations.KnownAnswer := by
  unfold Obligations.KnownAnswer
  decide +kernel

end Sys2Proof.Machine
end

section
/-! SUPPORT. The invariants at reset (R25, R28). -/

namespace Sys2Proof.Machine

/-- Settles O53: the state after reset is what a reset makes of itself, and its memory lists nothing. -/
theorem invariantsHoldAtReset : Obligations.InvariantsHoldAtReset :=
  ⟨inv_resetEngine State.reset, rfl, fun _ hc => absurd hc List.not_mem_nil⟩

end Sys2Proof.Machine
end
